-- ==== Sys2Proof/Word.lean ====
section
/-! DEFINITION. The words of the block: the units of its spaces and of its command port, and the shape of a memory.
Widths: spec/20_memory.md R40, R51; spec/30_encoding.md R71, R80. -/

namespace Sys2Proof

/-- One byte of the `SRC` space (20 R41). -/
abbrev Byte := BitVec 8

/-- One pixel word: a palette entry and a `DST` cell (30 R80). The block never takes it apart. -/
abbrev Pixel := BitVec 16

/-- A command word, the value written to `CMD` (30 R71). -/
abbrev CmdWord := BitVec 16

/-- A memory of units of type `α`: pairs of an address and the unit there, the addresses strictly rising.
An address that is not listed holds no value. -/
abbrev Memory (α : Type) := List (Nat × α)

end Sys2Proof
end

