-- ==== Sys2Proof/Syntax.lean ====
section
/-! DEFINITION. The commands of the block: one constructor per row of spec/opcode_table.json
(spec/30_encoding.md R70, R73). -/

namespace Sys2Proof

/-- A command, with its `border` operand as the number written after the mnemonic (30 R83). The SourceFrame operand
of `RENDER_FRAME` is not part of the command (30 R72): it is what `SRC` holds. -/
inductive Instr where
  /-- `RENDER_FRAME border` (43 R150). -/
  | renderFrame (border : Nat)
  /-- `RENDER_BORDER border` (44 R170). -/
  | renderBorder (border : Nat)
deriving DecidableEq, Repr

end Sys2Proof
end

