-- ==== Sys2Proof/WellFormed.lean ====
section
/-! DEFINITION. Which commands can be written in a command word: the border operand is a number from 0 to 255
(spec/30_encoding.md R71, R83). An operand of 16 to 255 is well formed: `RENDER_BORDER` rejects it when it runs
(R72, spec/44_render_border.md R171). -/

namespace Sys2Proof

/-- The border operand fits the 8-bit field of format `C` (30 R71, R72). -/
def Instr.wellFormed : Instr → Bool
  | .renderFrame border => decide (border < 256)
  | .renderBorder border => decide (border < 256)

/-- The command has an encoding. -/
abbrev Instr.WellFormed (i : Instr) : Prop := i.wellFormed = true

end Sys2Proof
end

