-- ==== Sys2Proof/Decode.lean ====
section
/-! DEFINITION. Command words: the decoder, total on all 65536 words (spec/30_encoding.md R71 to R74), the encoder
written from the same table, the written form (R83), and the host's view of a row of spec/opcode_table.json. -/

namespace Sys2Proof

/-- Why a word is no command. -/
inductive DecodeReject where
  /-- `op` is neither `0x01` nor `0x02` (30 R74); carries the `op` field. -/
  | reservedOp (op : BitVec 8)
deriving DecidableEq, Repr

/-- Field `op`, bits 15:8 (30 R71). -/
def opField (w : CmdWord) : BitVec 8 := w.extractLsb' 8 8

/-- Field `border`, bits 7:0, taken as written (30 R71, R72). -/
def borderField (w : CmdWord) : BitVec 8 := w.extractLsb' 0 8

/-- The command a word encodes. Only `op` selects it (30 R73); every other `op` is reserved (30 R74). -/
def decode (w : CmdWord) : Except DecodeReject Instr :=
  if opField w = 0x01#8 then .ok (.renderFrame (borderField w).toNat)
  else if opField w = 0x02#8 then .ok (.renderBorder (borderField w).toNat)
  else .error (.reservedOp (opField w))

/-- The operation code of a command (30 R73). -/
def opCode : Instr → BitVec 8
  | .renderFrame _ => 0x01#8
  | .renderBorder _ => 0x02#8

/-- The border operand of a command. -/
def borderOf : Instr → Nat
  | .renderFrame border => border
  | .renderBorder border => border

/-- The word of a well-formed command: `op` above `border` (30 R71, R83). -/
def encode (i : Instr) : CmdWord := opCode i ++ BitVec.ofNat 8 (borderOf i)

/-- The mnemonic of a command, as spec/opcode_table.json spells it. -/
def mnemonic : Instr → String
  | .renderFrame _ => "RENDER_FRAME"
  | .renderBorder _ => "RENDER_BORDER"

/-- The written form of a command: the mnemonic and the operand, which may not be omitted (30 R83). -/
def written (i : Instr) : String := mnemonic i ++ " " ++ toString (borderOf i)

/-- The command word whose low `nbits` bits are `w` and whose other bits are 0. -/
def tableWord (nbits w : Nat) : CmdWord := BitVec.ofNat 16 (w % 2 ^ nbits)

/-- The command the decoder reads from a word given as the opcode table numbers its bits. A command word is one
16-bit value (30 R71), so there is nothing to lay out; more than 16 bits are no command word. -/
def decodeTableWord (nbits w : Nat) : Option Instr :=
  if nbits ≤ 16 then
    match decode (tableWord nbits w) with
    | .ok i => some i
    | .error _ => none
  else none

end Sys2Proof
end

