-- ==== Sys2Proof/Config.lean ====
section
/-! DEFINITION. The constants of the block (spec/00_scope.md R6), and the values the spec leaves open:
the palette of an instance (R7, spec/92_eei_decisions.md D17) and a frame byte the host never provided
(spec/93_implementation_defined.md U2). The two `opaque` constants have no body: no proof can see a value of theirs. -/

namespace Sys2Proof

/-- `SRC_W`, the source's logical width in pixels (R6). -/
abbrev Config.srcW : Nat := 256
/-- `ATTR_BASE`, the offset of the attribute region in the frame (R6). -/
abbrev Config.attrBase : Nat := 6144
/-- `ATTR_COLS`, attribute cells in a row, and bytes in a bitmap row (R6, 20 R42). -/
abbrev Config.attrCols : Nat := 32
/-- `FRAME_MIN`, the least valid length of a source frame (R6). -/
abbrev Config.frameMin : Nat := 6912
/-- `DST_W`, the destination width (R6, 10 R19). -/
abbrev Config.dstW : Nat := 240
/-- `DST_H`, the destination height (R6, 10 R19). -/
abbrev Config.dstH : Nat := 135
/-- `DST_WORDS`, the cells of the destination buffer (R6). -/
abbrev Config.dstWords : Nat := 32400
/-- `CROP_TOP`, the source rows skipped at the top (R6). -/
abbrev Config.cropTop : Nat := 28

/-- How many offsets a `SRC` space can have: a 32-bit `SRC_LEN` is at most `2^32 - 1`, and the readable offsets
are 0 to `SRC_LEN - 1` (10 R23). DEDUCED, log entry 8. -/
abbrev Config.srcSpace : Nat := 4294967295

/-- The palette of the instance that `State.reset` describes: sixteen words the spec does not give
(10 R18, 92 D17). Log entry 3. -/
opaque Config.paletteEntry : Fin 16 → Pixel

/-- What a fetch reads at an offset the host has placed no byte at: any value (93 U2).
The first argument is `State.freeCount`, which every accepted render advances. Log entry 6. -/
opaque Config.unplacedByte : Nat → Nat → Byte

/-- Whether the instance that `State.reset` describes has a destination buffer (10 R26).
DESIGN CHOICE, log entry 4: the instance of the spec's programs P1 to P4 and P6 (95 section 6). -/
abbrev Config.resetBufPresent : Bool := true

end Sys2Proof
end

