-- ==== Sys2Proof/Machine/State.lean ====
section
/-! DEFINITION. What a ScreenTranscoder holds (spec/10_state.md R10 to R30), what its host has yet to do and what it
has put out, why a step can stop, and the state after reset (10 R29, spec/70_reset_and_hazards.md R210). -/

namespace Sys2Proof.Machine

/-- Why the machine would stop with a fault: never. Every fault of the spec is the response of a command, after which
the block "is idle again at once and accepts the next command" (60 R186, R188), so taking one is a next state. -/
inductive Fault where
deriving DecidableEq, Repr

/-- Why a step has no meaning. -/
inductive Refusal where
  /-- Raised by `exec` for a command without a meaning; no command of the spec is left without one. Safe. -/
  | notModelled (mnemonic : String)
  /-- Raised by the host port for an access to a register number of 4 or more, which "has no meaning: a model refuses
  it" (10 R25, 93 U6). Safe. -/
  | absentRegister (number : Nat)
  /-- Raised by the host port for a load that reaches an offset no `SRC_LEN` can cover (10 R23; log entry 8). Safe. -/
  | srcOffsetOutOfSpace (offset : Nat)
deriving DecidableEq, Repr

/-- The response a command ends with (30 R82, 60 R180). Codes 5 to 15 are never produced, so they have no
constructor (93 U15). -/
inductive Response where
  /-- 0: success. -/
  | ok
  /-- 1: `op` is neither `0x01` nor `0x02` (60 R181). -/
  | illegalCommand
  /-- 2: the instance has no destination buffer (60 R182). -/
  | bufferAbsent
  /-- 3: the declared length is below 6912 (60 R183). -/
  | invalidFrameSize
  /-- 4: a border colour index above 15 (60 R190). -/
  | invalidColorIndex
deriving DecidableEq, Repr

/-- A host register that exists (10 R20). -/
inductive HostReg where
  /-- Register 0, write-only. -/
  | cmd
  /-- Register 1, read-only. -/
  | status
  /-- Register 2, read-write. -/
  | srcLen
  /-- Register 3, read-only. -/
  | flash
deriving DecidableEq, Repr

/-- The value of one access to a register, which is "read or written whole" at the register's own width (10 R20). -/
inductive RegData where
  | cmd (word : CmdWord)
  | status (value : BitVec 8)
  | srcLen (value : BitVec 32)
  | flash (value : BitVec 8)
deriving DecidableEq, Repr

/-- One thing the host does to the block or to the `SRC` space (10 R20 to R25, 30 R84, 70 R221). -/
inductive HostAction where
  /-- Assert and release reset while the block is idle (70 R210). -/
  | reset
  /-- Write the word to `CMD` and assert reset while that command executes (70 R212). -/
  | resetDuring (word : CmdWord)
  /-- Write a register. -/
  | write (data : RegData)
  /-- Read a register. -/
  | read (reg : HostReg)
  /-- Read or write register number `4 + k`, which does not exist (10 R20). -/
  | accessAbsent (k : Nat)
  /-- Place bytes in `SRC` from an offset on (30 R84). -/
  | loadSrc (offset : Nat) (bytes : List Byte)
deriving DecidableEq, Repr

/-- What leaves the block. -/
inductive Event where
  /-- The Present event (43 R158). -/
  | present (originX originY width height : Nat) (data : List Pixel)
  /-- The value a register read returns to the host (10 R20). -/
  | readData (data : RegData)
deriving DecidableEq, Repr

/-- One instance of the block with its surroundings, as plain data. -/
structure State where
  /-- `FLASH.CNT` (10 R11). -/
  flashCnt : BitVec 4
  /-- `FLASH.FLAG` (10 R12). -/
  flashFlag : Bool
  /-- `DST` (10 R14): the cells that hold a value, in rising order of index. -/
  dst : Memory Pixel
  /-- `STATUS.ERR` (10 R22). -/
  statusErr : Response
  /-- `SRC_LEN` (10 R23). -/
  srcLen : BitVec 32
  /-- `PAL`, constant for the life of the instance (10 R18). -/
  pal : Vector Pixel 16
  /-- The strap `BUF_PRESENT`, constant for the life of the instance (10 R26). -/
  bufPresent : Bool
  /-- The `SRC` space, the host's (20 R41): the bytes placed so far, in rising order of offset. -/
  src : List Host.Cell
  /-- What the host does next, oldest first. Log entry 1. -/
  host : List HostAction
  /-- What the block has put out, newest first (10 R30). Log entry 2. -/
  events : List Event
  /-- How many accepted renders have drawn free values so far. Log entry 6. -/
  freeCount : Nat
deriving DecidableEq, Repr

/-- An instance after its construction, with nothing placed in `SRC` and no host action pending: the table of
10 R29. `PAL` and the strap are what the instance was built with. -/
def State.ofInstance (pal : Vector Pixel 16) (bufPresent : Bool) : State where
  flashCnt := 0#4
  flashFlag := false
  dst := []
  statusErr := .ok
  srcLen := 0#32
  pal := pal
  bufPresent := bufPresent
  src := []
  host := []
  events := []
  freeCount := 0

/-- The machine right after reset (10 R29). The palette is a free value (log entry 3) and the instance has a buffer
(log entry 4). -/
def State.reset : State :=
  State.ofInstance (Vector.ofFn Config.paletteEntry) Config.resetBufPresent

end Sys2Proof.Machine
end

