-- ==== Sys2Proof/Machine/Ops.lean ====
section
/-! DEFINITION. The shared operations: reading and writing a memory, the three spaces (spec/20_memory.md R40 to R47),
the register views (spec/10_state.md R20 to R24), ending a command with a response or a fault
(spec/60_exceptions.md R184, R186), emitting an event, and reset (spec/70_reset_and_hazards.md R210). -/

namespace Sys2Proof.Machine

/-! ### Memories -/

/-- The unit at an address, or nothing where no value is held. -/
def Memory.read {α : Type} : Memory α → Nat → Option α
  | [], _ => none
  | (b, v) :: rest, a => if a = b then some v else if a < b then none else Memory.read rest a

/-- The memory with one unit replaced, in the same form. -/
def Memory.write {α : Type} : Memory α → Nat → α → Memory α
  | [], a, v => [(a, v)]
  | (b, u) :: rest, a, v =>
    if a = b then (a, v) :: rest
    else if a < b then (a, v) :: (b, u) :: rest
    else (b, u) :: Memory.write rest a v

/-- The memory with units placed at consecutive addresses from `a` on. -/
def Memory.place {α : Type} : Memory α → Nat → List α → Memory α
  | m, _, [] => m
  | m, a, v :: vs => Memory.place (Memory.write m a v) (a + 1) vs

/-- The canonical form: the addresses rise strictly. An unlisted address holds no value, so no entry can be one that
an unlisted address reads as. -/
abbrev Memory.wf {α : Type} (m : Memory α) : Prop := (m.map Prod.fst).Pairwise (· < ·)

/-! ### The three spaces -/

/-- `SrcRead(a)`: the byte the host placed at offset `a` (20 R41); where it placed none, a free value
(93 U2, log entry 6). -/
def srcRead (s : State) (a : Nat) : Byte :=
  (Memory.read s.src a).getD (Config.unplacedByte s.freeCount a)

/-- The value of a `DST` cell, if it holds one (10 R14, 93 U5). Only statements read `DST` by index: the block never
does (20 R44). -/
def dstRead (s : State) (p : Nat) : Option Pixel := Memory.read s.dst p

/-- `PalRead(i)` (20 R47). -/
def palRead (s : State) (i : BitVec 4) : Pixel := s.pal[i.toNat]'i.isLt

/-! ### Responses and faults -/

/-- The code of a response (30 R82, 60 R180). -/
def Response.code : Response → BitVec 4
  | .ok => 0#4
  | .illegalCommand => 1#4
  | .bufferAbsent => 2#4
  | .invalidFrameSize => 3#4
  | .invalidColorIndex => 4#4

/-- `STATUS.ERR <- r` (60 R184). -/
def setErr (r : Response) (s : State) : State := { s with statusErr := r }

/-- `respond(OK)`: end the command normally (60 R184). -/
def respondOk (s : State) : Host.Outcome State Fault Refusal := .next (setErr .ok s)

/-- `raise r`: take a fault (60 R186). The command ends, `STATUS.ERR` records the code and nothing else changes;
there is no handler to enter, nothing is saved, and so there is nothing to return from (60 R188). -/
def raise (r : Response) (s : State) : Host.Outcome State Fault Refusal := .next (setErr r s)

/-! ### Events -/

/-- Put an event out. -/
def emit (e : Event) (s : State) : State := { s with events := e :: s.events }

/-! ### Register views -/

/-- `STATUS`: `ERR` in bits 3:0, `BUF_OK` in bit 4, bits 7:5 zero (10 R22). -/
def statusReg (s : State) : BitVec 8 := 0#3 ++ BitVec.ofBool s.bufPresent ++ s.statusErr.code

/-- `FLASH`: `CNT` in bits 3:0, `FLAG` in bit 4, bits 7:5 zero (10 R24). -/
def flashReg (s : State) : BitVec 8 := 0#3 ++ BitVec.ofBool s.flashFlag ++ s.flashCnt

/-- The number of a host register (10 R20). -/
def HostReg.number : HostReg → Nat
  | .cmd => 0
  | .status => 1
  | .srcLen => 2
  | .flash => 3

/-- What a read of a register returns; `CMD` stores nothing and reads 0 (10 R21 to R25). -/
def regRead (s : State) : HostReg → RegData
  | .cmd => .cmd 0#16
  | .status => .status (statusReg s)
  | .srcLen => .srcLen s.srcLen
  | .flash => .flash (flashReg s)

/-- Write `SRC_LEN` (10 R23). -/
def setSrcLen (n : BitVec 32) (s : State) : State := { s with srcLen := n }

/-! ### The host's side -/

/-- Place bytes in `SRC` from an offset on (30 R84, 20 R41). -/
def fillSrc (offset : Nat) (bytes : List Byte) (s : State) : State :=
  { s with src := Memory.place s.src offset bytes }

/-- Take the reset (70 R210, R211; 10 R29): the FlashPhase, `STATUS.ERR` and `SRC_LEN` to 0, and no `DST` cell with a
value. `PAL`, the strap, `SRC`, the host and what was put out before are untouched. -/
def takeReset (s : State) : State :=
  { s with flashCnt := 0#4, flashFlag := false, dst := [], statusErr := .ok, srcLen := 0#32 }

end Sys2Proof.Machine
end

