-- ==== Sys2Proof/Machine/Operands.lean ====
section
/-! DEFINITION. The operands of the two commands: the border index (spec/44_render_border.md R171) and the source
frame, with the functions that turn a destination position into source addresses
(spec/41_address_generation.md R110 to R119) and the two fetches (spec/42_colour_resolution.md R130).
Each function's domain is its argument type: none is defined outside it (93 U3; log entry 9). -/

namespace Sys2Proof.Machine

/-- A destination row, 0 to 134. -/
abbrev DstRow := Fin 135
/-- A destination column, 0 to 239. -/
abbrev DstCol := Fin 240
/-- A pixel index, the value of `PIX` inside the scan, 0 to 32399 (10 R16). -/
abbrev PixIndex := Fin 32400
/-- A source row, 0 to 191. -/
abbrev SrcRow := Fin 192
/-- A source column, 0 to 255. -/
abbrev SrcCol := Fin 256

/-- A legal border colour index, compared as the full 8-bit number (44 R171). -/
def borderLegal (border : Nat) : Bool := decide (border ≤ 15)

/-- The declared length is enough for a frame: an unsigned compare (43 R151, 60 R183). -/
def frameDeclared (s : State) : Bool := decide (Config.frameMin ≤ s.srcLen.toNat)

/-- The row of pixel `PIX` (43 R153). -/
def pixRow (p : PixIndex) : DstRow :=
  ⟨p.val / Config.dstW, by have := p.isLt; simp only [Config.dstW]; omega⟩

/-- The column of pixel `PIX` (43 R153). -/
def pixCol (p : PixIndex) : DstCol :=
  ⟨p.val % Config.dstW, by simp only [Config.dstW]; omega⟩

/-- `SrcRow(y)`, the crop mapper (41 R110). -/
def srcRow (y : DstRow) : SrcRow :=
  ⟨y.val + Config.cropTop, by have := y.isLt; simp only [Config.cropTop]; omega⟩

/-- `RowOffset(srcY)`, the interleaved address decoder (41 R112). -/
def rowOffset (srcY : SrcRow) : Nat :=
  let third := srcY.val / 64
  let line := srcY.val % 8
  let band := (srcY.val % 64) / 8
  third * 2048 + line * 256 + band * 32

/-- `AttrRowAddr(srcY)`, the attribute cell row (41 R114). -/
def attrRowAddr (srcY : SrcRow) : Nat :=
  let attributeRowIndex := srcY.val / 8
  Config.attrBase + attributeRowIndex * Config.attrCols

/-- `SrcCol(x)`, the linear resampler (41 R115). -/
def srcCol (x : DstCol) : SrcCol :=
  ⟨(x.val * Config.srcW) / Config.dstW, by have := x.isLt; simp only [Config.srcW, Config.dstW]; omega⟩

/-- `ByteCol(srcX)` (41 R117). -/
def byteCol (srcX : SrcCol) : Nat := srcX.val / 8

/-- `BitPos(srcX)`, the bit number with bit 0 least significant (41 R117, 90 C8). -/
def bitPos (srcX : SrcCol) : Nat := 7 - srcX.val % 8

/-- `BitmapAddr(x, y)` (41 R118). -/
def bitmapAddr (x : DstCol) (y : DstRow) : Nat := rowOffset (srcRow y) + byteCol (srcCol x)

/-- `AttrAddr(x, y)` (41 R118). -/
def attrAddr (x : DstCol) (y : DstRow) : Nat := attrRowAddr (srcRow y) + byteCol (srcCol x)

/-- `DstIndex(x, y)` (41 R119). -/
def dstIndex (x : DstCol) (y : DstRow) : Nat := y.val * Config.dstW + x.val

/-- The bitmap byte of a destination pixel (42 R130). -/
def fetchBitmap (s : State) (x : DstCol) (y : DstRow) : Byte := srcRead s (bitmapAddr x y)

/-- The attribute byte of a destination pixel (42 R130). -/
def fetchAttr (s : State) (x : DstCol) (y : DstRow) : Byte := srcRead s (attrAddr x y)

end Sys2Proof.Machine
end

