-- ==== Sys2Proof/Machine/RenderBorder.lean ====
section
/-! DEFINITION. `RENDER_BORDER` (spec/44_render_border.md). -/

namespace Sys2Proof.Machine

/-- `RENDER_BORDER border` (44 R170 to R172): a border above 15 raises `InvalidColorIndex`, a legal one is a no-op. -/
def execRenderBorder (border : Nat) (s : State) : Host.Outcome State Fault Refusal :=
  if borderLegal border = false then raise .invalidColorIndex s
  else respondOk s

end Sys2Proof.Machine
end

