-- ==== Sys2Proof/Machine/Colour.lean ====
section
/-! DEFINITION. Colour resolution: from the two fetched bytes, the bit position and the flash boolean to a palette
index (spec/42_colour_resolution.md R131 to R136), in the source's order. -/

namespace Sys2Proof.Machine

/-- The `ink` field of an attribute byte, bits 2:0 (42 R131, 30 R75). -/
def attrInk (attr : Byte) : BitVec 3 := attr.extractLsb' 0 3

/-- The `paper` field, bits 5:3. -/
def attrPaper (attr : Byte) : BitVec 3 := attr.extractLsb' 3 3

/-- The `bright` bit, bit 6. -/
def attrBright (attr : Byte) : Bool := attr.getLsbD 6

/-- The `flash` bit, bit 7. -/
def attrFlash (attr : Byte) : Bool := attr.getLsbD 7

/-- The flash-phase mux on the pair (ink, paper): exchange them in a flashing cell while `FLASH.FLAG` is 1
(42 R132). -/
def flashMux (flash flag : Bool) (colours : BitVec 3 × BitVec 3) : BitVec 3 × BitVec 3 :=
  if flash && flag then (colours.2, colours.1) else colours

/-- The bright promotion of one colour to a palette index: set bit 3 if the cell is bright (42 R133, 30 R79). -/
def promote (bright : Bool) (colour : BitVec 3) : BitVec 4 :=
  if bright then colour.setWidth 4 ||| 8#4 else colour.setWidth 4

/-- Pixel select: the bitmap bit chooses ink or paper (42 R134, 20 R48). -/
def pixelSelect (bmp : Byte) (bit : Nat) (ink paper : BitVec 4) : BitVec 4 :=
  if bmp.getLsbD bit then ink else paper

/-- `ColourIndex(attr, bmp, bitpos, F)` as the composition of 42 R131 to R134. -/
def colourIndex (attr bmp : Byte) (bit : Nat) (flag : Bool) : BitVec 4 :=
  let colours := flashMux (attrFlash attr) flag (attrInk attr, attrPaper attr)
  pixelSelect bmp bit (promote (attrBright attr) colours.1) (promote (attrBright attr) colours.2)

/-- The palette index of a destination pixel, with the FlashPhase as the state holds it (43 R154). -/
def pixelIndex (s : State) (x : DstCol) (y : DstRow) : BitVec 4 :=
  colourIndex (fetchAttr s x y) (fetchBitmap s x y) (bitPos (srcCol x)) s.flashFlag

/-- The word of pixel `PIX`: the palette entry of its index, passed on unchanged (42 R135, 43 R154). -/
def pixelWord (s : State) (p : PixIndex) : Pixel := palRead s (pixelIndex s (pixCol p) (pixRow p))

end Sys2Proof.Machine
end

