-- ==== Sys2Proof/Machine/Flags.lean ====
section
/-! DEFINITION. The one flag of the block and the counter that drives it: the FlashPhase
(spec/40_flash_phase.md R100 to R105, spec/10_state.md R28). -/

namespace Sys2Proof.Machine

/-- `FlashAdvance` on a FlashPhase `(CNT, FLAG)` (40 R100): increment first, compare after, so the toggle happens in
the 16th call itself. -/
def flashAdvance (cnt : BitVec 4) (flag : Bool) : BitVec 4 × Bool :=
  let c : BitVec 5 := cnt.setWidth 5 + 1#5
  if c = 16#5 then (0#4, !flag) else (c.setWidth 4, flag)

/-- `FlashAdvance()` on the state (40 R100, R101). -/
def advanceFlash (s : State) : State :=
  { s with
    flashCnt := (flashAdvance s.flashCnt s.flashFlag).1
    flashFlag := (flashAdvance s.flashCnt s.flashFlag).2 }

end Sys2Proof.Machine
end

