-- ==== Sys2Proof/Machine/RenderFrame.lean ====
section
/-! DEFINITION. `RENDER_FRAME` (spec/43_render_frame.md), as the one atomic transition of R157. The pixel-by-pixel form
of R152 to R155 stands in Scan.lean. -/

namespace Sys2Proof.Machine

/-- The whole buffer of one render: cell `p` holds the word of pixel `p`, in ascending order (43 R153, R156).
Irreducible, so that no proof unfolds 32400 cells by accident: Sys2Proof/Laws/Frame.lean says what it holds. -/
@[irreducible] def frameCells (s : State) : Memory Pixel :=
  (List.finRange 32400).map fun p => (p.val, pixelWord s p)

/-- Overwrite `DST` in full with the frame drawn under the FlashPhase the state holds (43 R156, 20 R46). The free
values of this render are used up (log entry 6). -/
def drawFrame (s : State) : State :=
  { s with dst := frameCells s, freeCount := s.freeCount + 1 }

/-- The Present event of a buffer: the whole rectangle, the words in index order (43 R158). -/
def presentOf (cells : Memory Pixel) : Event :=
  .present 0 0 Config.dstW Config.dstH (cells.map Prod.snd)

/-- `emit Present(0, 0, 240, 135, DST[0..32399])` (43 R152, R158). -/
def present (s : State) : State := emit (presentOf s.dst) s

/-- The state after an accepted render, but for the response: the flash advance, then the frame, then the Present
(43 R152). -/
def rendered (s : State) : State := present (drawFrame (advanceFlash s))

/-- `RENDER_FRAME border` (43 R150 to R152): the two checks in their order, then the render. `border` is ignored
(43 R160). -/
def execRenderFrame (_border : Nat) (s : State) : Host.Outcome State Fault Refusal :=
  if s.bufPresent = false then raise .bufferAbsent s
  else if frameDeclared s = false then raise .invalidFrameSize s
  else respondOk (rendered s)

end Sys2Proof.Machine
end

