-- ==== Sys2Proof/Machine/Dispatch.lean ====
section
/-! DEFINITION. Which meaning each command has (spec/30_encoding.md R70, R73). -/

namespace Sys2Proof.Machine

def exec (i : Instr) (s : State) : Host.Outcome State Fault Refusal :=
  match i with
  | .renderFrame border => Sys2Proof.Machine.execRenderFrame border s
  | .renderBorder border => Sys2Proof.Machine.execRenderBorder border s

end Sys2Proof.Machine
end

