-- ==== Sys2Proof/Machine/HostPort.lean ====
section
/-! DEFINITION. What each host action does: a write of `CMD` issues a command (spec/10_state.md R21), the other
register accesses (R22 to R25), a load of `SRC` (spec/30_encoding.md R84) and reset
(spec/70_reset_and_hazards.md R210 to R212). -/

namespace Sys2Proof.Machine

/-- A write of `CMD`: decode, and execute the command to its end (10 R21, 20 R55). A reserved word raises
`IllegalCommand`, before anything of the command is looked at (30 R74, 60 R181, R185). -/
def issueCommand (w : CmdWord) (s : State) : Host.Outcome State Fault Refusal :=
  match decode w with
  | .ok i => exec i s
  | .error _ => raise .illegalCommand s

/-- A write of a register (10 R21 to R25). A write of a read-only register is ignored. -/
def writeReg (data : RegData) (s : State) : Host.Outcome State Fault Refusal :=
  match data with
  | .cmd w => issueCommand w s
  | .status _ => .next s
  | .srcLen n => .next (setSrcLen n s)
  | .flash _ => .next s

/-- A read of a register: its value goes to the host and nothing else happens (10 R22, R24). -/
def readReg (r : HostReg) (s : State) : Host.Outcome State Fault Refusal :=
  .next (emit (.readData (regRead s r)) s)

/-- A load of `SRC`, refused where it would reach past every offset a length can declare (log entry 8). -/
def loadBytes (offset : Nat) (bytes : List Byte) (s : State) : Host.Outcome State Fault Refusal :=
  if offset + bytes.length ≤ Config.srcSpace then .next (fillSrc offset bytes s)
  else .refused (.srcOffsetOutOfSpace (offset + bytes.length))

/-- One host action. A reset that hits a command abandons it: it gives no response and no Present, and the state takes
the reset values (70 R212; log entry 10). -/
def perform (a : HostAction) (s : State) : Host.Outcome State Fault Refusal :=
  match a with
  | .reset => .next (takeReset s)
  | .resetDuring _ => .next (takeReset s)
  | .write data => writeReg data s
  | .read r => readReg r s
  | .accessAbsent k => .refused (.absentRegister (4 + k))
  | .loadSrc offset bytes => loadBytes offset bytes s

/-- The state once the host's next action is taken from the queue. -/
def takeAction (rest : List HostAction) (s : State) : State := { s with host := rest }

/-- One step: the host's next action, or nothing when none is pending, since the block does not act without a command
(70 R221; log entry 1). -/
def hostStep (s : State) : Host.Outcome State Fault Refusal :=
  match s.host with
  | [] => .next s
  | a :: rest => perform a (takeAction rest s)

/-- The state with a write of `CMD` as the host's next action. -/
def queueCommand (w : CmdWord) (s : State) : State := { s with host := .write (.cmd w) :: s.host }

end Sys2Proof.Machine
end

