-- ==== Sys2Proof/Machine/Scan.lean ====
section
/-! DEFINITION. `RENDER_FRAME` pixel by pixel (spec/43_render_frame.md R152 to R155), with the pixel counter `PIX`
(spec/10_state.md R16), which exists only here. "A model may implement the command either as this one transition or as
the 32400 pixel steps" (R157): `exec` uses the transition, and a statement says the two agree. -/

namespace Sys2Proof.Machine

/-- The pixel scan in progress: `PIX` and the buffer as far as it is written. -/
structure Scan where
  /-- `PIX`, 0 to 32400 (10 R16). -/
  pix : Nat
  /-- `DST`. -/
  dst : Memory Pixel
deriving DecidableEq, Repr

/-- `PixelStep()` at a pixel below 32400 (43 R154): one word written at `PIX`, then `PIX <- PIX + 1`. At 32400 the
scan is over and nothing happens (43 R153). -/
def pixelStep (s : State) (c : Scan) : Scan :=
  if h : c.pix < 32400 then
    { pix := c.pix + 1, dst := Memory.write c.dst c.pix (pixelWord s ⟨c.pix, h⟩) }
  else c

/-- `n` pixel steps. -/
def pixelSteps (s : State) : Nat → Scan → Scan
  | 0, c => c
  | n + 1, c => pixelSteps s n (pixelStep s c)

/-- `PIX <- 0; while PIX < 32400 do PixelStep()` (43 R152), from the buffer the state holds. Irreducible for the
same reason as `frameCells`. -/
@[irreducible] def scanFrame (s : State) : Scan := pixelSteps s Config.dstWords { pix := 0, dst := s.dst }

/-- Overwrite `DST` by the scan, as `drawFrame` does at once. -/
def drawByScan (s : State) : State :=
  { s with dst := (scanFrame s).dst, freeCount := s.freeCount + 1 }

/-- The command with the scan in place of the atomic drawing of the frame (43 R152). -/
def renderByScan (s : State) : Host.Outcome State Fault Refusal :=
  if s.bufPresent = false then raise .bufferAbsent s
  else if frameDeclared s = false then raise .invalidFrameSize s
  else respondOk (present (drawByScan (advanceFlash s)))

end Sys2Proof.Machine
end

