-- ==== Sys2Proof/Safety.lean ====
section
/-! DEFINITION. The terms in which statements speak of runs: the invariant of the machine, the host actions that have a
meaning, renders that will be accepted, and how many frames have been presented. -/

namespace Sys2Proof.Machine

/-- A Present event as the spec allows it: the full rectangle at the origin with 32400 words (43 R158). Other events
are not restricted. -/
def Event.presentWhole : Event → Prop
  | .present ox oy w h data => ox = 0 ∧ oy = 0 ∧ w = 240 ∧ h = 135 ∧ data.length = 32400
  | .readData _ => True

/-- The invariant of the machine: what every step keeps. -/
structure State.Inv (s : State) : Prop where
  /-- `SRC` is in canonical form. -/
  srcWf : Memory.wf s.src
  /-- Every byte placed in `SRC` is at an offset a length can cover (log entry 8). -/
  srcInSpace : ∀ c ∈ s.src, c.1 < Config.srcSpace
  /-- `DST` holds no value anywhere, or one in each of the cells 0 to 32399 and nowhere else (10 R15, R29, 20 R46). -/
  dstWhole : s.dst = [] ∨ s.dst.map Prod.fst = List.range 32400
  /-- An instance without a buffer has no cells (10 R26). -/
  dstAbsent : s.bufPresent = false → s.dst = []
  /-- Only whole frames have been presented (43 R158, R159). -/
  presents : ∀ e ∈ s.events, e.presentWhole

/-- The host action has a meaning: it names a register that exists and an offset a length can cover. -/
def HostAction.hasMeaning : HostAction → Bool
  | .accessAbsent _ => false
  | .loadSrc offset bytes => decide (offset + bytes.length ≤ Config.srcSpace)
  | _ => true

/-- A render would pass its checks (43 R151). -/
def renderReady (s : State) : Bool := s.bufPresent && frameDeclared s

/-- The host's next action issues a `RENDER_FRAME` that will pass its checks. -/
def rendersNext (s : State) : Bool :=
  match s.host with
  | .write (.cmd w) :: _ =>
    match decode w with
    | .ok (.renderFrame _) => renderReady s
    | _ => false
  | _ => false

/-- The host's next action is a reset, between commands or in one. -/
def resetsNext (s : State) : Bool :=
  match s.host with
  | .reset :: _ => true
  | .resetDuring _ :: _ => true
  | _ => false

/-- How many Present events a log holds. -/
def presentCount (events : List Event) : Nat :=
  events.countP fun
    | .present .. => true
    | .readData _ => false

/-- How many of the next `n` steps are renders that pass their checks; a step that answers no next state ends the
count. -/
def acceptedRenders : Nat → State → Nat
  | 0, _ => 0
  | n + 1, s =>
    (if rendersNext s then 1 else 0) +
      match step s with
      | .next t => acceptedRenders n t
      | .fault _ => 0
      | .refused _ => 0

/-- None of the next `n` steps is a reset; a step that answers no next state ends the run. -/
def resetFree : Nat → State → Bool
  | 0, _ => true
  | n + 1, s =>
    !resetsNext s &&
      match step s with
      | .next t => resetFree n t
      | .fault _ => true
      | .refused _ => true

/-- Every byte of the frame format has been placed by the host (20 R42, 70 R214). -/
def framePlaced (s : State) : Prop := ∀ a, a < 6912 → (Memory.read s.src a).isSome

end Sys2Proof.Machine
end

