-- ==== Sys2Proof/Certificates/Slice0/Obligations.lean ====
section
/-! DEFINITION. The statements about the model, for the provers. Each docstring names the rules of spec/ it rests on. -/

open Sys2Proof Sys2Proof.Machine

/-! ### Encodings -/

/-- Decoding the word of a well-formed command gives the command back, with every operand 0 to 255, also when the
word is given as the opcode table numbers it (30_encoding.md R71, R73, the spec's decision D3). -/
def Obligations.DecodeOfEncodeIsTheCommand : Prop :=
  ∀ i : Instr, i.WellFormed →
    decode (encode i) = .ok i ∧ decodeTableWord 16 (encode i).toNat = some i

/-- A word that decodes is the word of its command, and that command is well formed: no two words mean the same
command (30_encoding.md R71, R72, the spec's decision D3). -/
def Obligations.EncodeOfDecodeIsTheWord : Prop :=
  ∀ (w : CmdWord) (i : Instr), decode w = .ok i → i.WellFormed ∧ encode i = w

/-- The decoder is the match and mask table of opcode_table.json, with the border in the low byte, and refuses
every other word (30_encoding.md R73, R74, the spec's decisions D3 and D4). -/
def Obligations.DecodeFollowsMatchAndMask : Prop :=
  ∀ w : CmdWord,
    (∀ b, decode w = .ok (.renderFrame b) ↔ w &&& 0xFF00#16 = 0x0100#16 ∧ b = w.toNat % 256) ∧
    (∀ b, decode w = .ok (.renderBorder b) ↔ w &&& 0xFF00#16 = 0x0200#16 ∧ b = w.toNat % 256) ∧
    ((∃ e, decode w = .error e) ↔ w &&& 0xFF00#16 ≠ 0x0100#16 ∧ w &&& 0xFF00#16 ≠ 0x0200#16)

/-- A few words written out from the encoding (30_encoding.md R71, R73, R74; 95_test_vectors.md section 2.6). -/
def Obligations.SampleWordsDecode : Prop :=
  decode 0b00000001_00000000#16 = .ok (.renderFrame 0) ∧
  decode 0b00000001_11111111#16 = .ok (.renderFrame 255) ∧
  decode 0b00000010_00000111#16 = .ok (.renderBorder 7) ∧
  decode 0b00000010_10000000#16 = .ok (.renderBorder 128) ∧
  decode 0b00000000_00000001#16 = .error (.reservedOp 0x00#8) ∧
  decode 0b10000001_00000000#16 = .error (.reservedOp 0x81#8)

/-! ### The step -/

/-- A write of `CMD` with a word that decodes runs exactly that command, on the state with the action taken from the
host's queue; and `withFetchWord` makes the very next step run the word (10_state.md R21, 20_memory.md R55, the spec's
decisions D3 and D5; the queue is the model's, log entry 1). -/
def Obligations.StepRunsTheDecodedCommand : Prop :=
  (∀ (s : State) (w : CmdWord) (i : Instr) (rest : List HostAction),
    s.host = .write (.cmd w) :: rest → decode w = .ok i →
      step s = exec i { s with host := rest }) ∧
  (∀ (s : State) (nbits w : Nat) (i : Instr),
    decodeTableWord nbits w = some i → step (s.withFetchWord nbits w) = exec i s)

/-- A reserved command word, one whose high byte is neither 1 nor 2, takes the `IllegalCommand` fault: `STATUS.ERR`
becomes 1 and nothing else changes (30_encoding.md R74, 60_exceptions.md R181, the spec's decisions D4 and D10). -/
def Obligations.ReservedWordTakesIllegalCommand : Prop :=
  ∀ (s : State) (w : CmdWord) (rest : List HostAction),
    s.host = .write (.cmd w) :: rest → w.toNat / 256 ≠ 1 → w.toNat / 256 ≠ 2 →
      ∃ t, step s = .next t ∧ t.statusErr.code = 1#4 ∧
        t = { s with host := rest, statusErr := t.statusErr }

/-- With no host action pending the machine stays as it is (70_reset_and_hazards.md section 5: the block must not
"act without a command"; that a step may find nothing to do is the model's choice, log entry 1). -/
def Obligations.NoPendingActionChangesNothing : Prop :=
  ∀ s : State, s.host = [] → step s = .next s

/-- A step answers a next state exactly when no action is pending or the pending one has a meaning, and never a fault:
every command, whatever its word and the state, completes (70_reset_and_hazards.md R220 and 60_exceptions.md R188, the
spec's decisions D16 and D32; 10_state.md R25). Two clauses are the model's choice: that a step with no action pending
answers a next state (log entry 1; R221 says only that the block does not act without a command), and where loads end
(log entry 8). That no step faults holds by type already, since `Fault` has no constructor. -/
def Obligations.EveryMeaningfulActionCompletes : Prop :=
  ∀ s : State,
    ((∃ t, step s = .next t) ↔ ∀ a rest, s.host = a :: rest → a.hasMeaning = true) ∧
    (∀ f, step s ≠ .fault f)

/-- The response of an earlier command has no influence on a later one: the command after a fault executes as it would
have had the faulting command never been issued (60_exceptions.md R188, the spec's decision D16). -/
def Obligations.EarlierResponseHasNoInfluence : Prop :=
  ∀ (i : Instr) (s : State) (r : Response), exec i { s with statusErr := r } = exec i s

/-! ### The FlashPhase -/

/-- `FlashAdvance`: increment first, compare after; from 15 the counter goes to 0 and the flag toggles, from any other
value the flag stays; nothing else is written (R100). -/
def Obligations.FlashAdvanceIncrementsThenToggles : Prop :=
  ∀ s : State,
    (s.flashCnt.toNat = 15 →
      (advanceFlash s).flashCnt.toNat = 0 ∧ (advanceFlash s).flashFlag = !s.flashFlag) ∧
    (s.flashCnt.toNat ≠ 15 →
      (advanceFlash s).flashCnt.toNat = s.flashCnt.toNat + 1 ∧
      (advanceFlash s).flashFlag = s.flashFlag) ∧
    { advanceFlash s with flashCnt := s.flashCnt, flashFlag := s.flashFlag } = s

/-- An accepted render advances the register `FLASH` as a 5-bit counter (40_flash_phase.md R101, R103, marked there as
the spec's decision D10 and inference). -/
def Obligations.RenderAdvancesFlashModulo32 : Prop :=
  ∀ (s : State) (border : Nat), s.bufPresent = true → 6912 ≤ s.srcLen.toNat →
    ∃ t, exec (.renderFrame border) s = .next t ∧
      (flashReg t).toNat = ((flashReg s).toNat + 1) % 32

/-- The closed form: after `n` renders from a FlashPhase of (0, 0), the count is `n % 16` and the flag is `(n / 16) % 2`
(40_flash_phase.md R102, R106, the spec's own inferences); `n` more frames have been presented and the response of the
last render is 0 (43_render_frame.md R152, R159; the event is the spec's decision D22, the log of events log entry 2). -/
def Obligations.FlashPhaseAfterRenders : Prop :=
  ∀ (s : State) (words : List CmdWord) (rest : List HostAction),
    s.host = words.map (fun w => .write (.cmd w)) ++ rest →
    (∀ w ∈ words, w.toNat / 256 = 1) →
    s.bufPresent = true → 6912 ≤ s.srcLen.toNat →
    s.flashCnt = 0#4 → s.flashFlag = false →
    ∃ t : State, core.run words.length s = .next t ∧ t.host = rest ∧
      t.flashCnt.toNat = words.length % 16 ∧
      t.flashFlag = decide ((words.length / 16) % 2 = 1) ∧
      presentCount t.events = presentCount s.events + words.length ∧
      (words ≠ [] → t.statusErr = .ok)

/-- Only an accepted render and a reset change the FlashPhase, and a reset puts it to (0, 0)
(40_flash_phase.md R105, 10_state.md R13; the reset values are the spec's decision D6). -/
def Obligations.OnlyRenderAndResetChangeFlash : Prop :=
  ∀ s t : State, step s = .next t →
    (rendersNext s = false → resetsNext s = false →
      t.flashCnt = s.flashCnt ∧ t.flashFlag = s.flashFlag) ∧
    (resetsNext s = true → t.flashCnt = 0#4 ∧ t.flashFlag = false)

/-! ### Address generation -/

/-- The address functions give the spec's formulas with their ranges: `SrcRow`, `RowOffset`, `AttrRowAddr`, `SrcCol`,
`ByteCol`, `BitPos`, `DstIndex` (R110, R112, R114, R115, R117, R119). -/
def Obligations.AddressFunctionsFollowTheFormulas : Prop :=
  (∀ y : DstRow, (srcRow y).val = y.val + 28 ∧ 28 ≤ (srcRow y).val ∧ (srcRow y).val ≤ 162) ∧
  (∀ r : SrcRow, rowOffset r = (r.val / 64) * 2048 + (r.val % 8) * 256 + ((r.val % 64) / 8) * 32 ∧
    rowOffset r ≤ 6112 ∧ rowOffset r % 32 = 0) ∧
  (∀ r : SrcRow, attrRowAddr r = 6144 + (r.val / 8) * 32 ∧ 6144 ≤ attrRowAddr r ∧
    attrRowAddr r ≤ 6880) ∧
  (∀ y : DstRow, 6240 ≤ attrRowAddr (srcRow y) ∧ attrRowAddr (srcRow y) ≤ 6784) ∧
  (∀ x : DstCol, (srcCol x).val = (x.val * 256) / 240 ∧ (srcCol x).val ≤ 254) ∧
  (∀ c : SrcCol, byteCol c = c.val / 8 ∧ byteCol c ≤ 31 ∧ bitPos c = 7 - c.val % 8 ∧ bitPos c ≤ 7) ∧
  (∀ (x : DstCol) (y : DstRow), dstIndex x y = y.val * 240 + x.val ∧ dstIndex x y ≤ 32399) ∧
  (∀ p : PixIndex, dstIndex (pixCol p) (pixRow p) = p.val)

/-- The two fetch addresses of a pixel as 13-bit patterns, third, line, band and byte column side by side, and both
inside the frame (30_encoding.md R77, R78, 41_address_generation.md R118; the patterns are the spec's own inference). -/
def Obligations.FetchAddressesAreBitPatterns : Prop :=
  ∀ (x : DstCol) (y : DstRow),
    let Y : BitVec 8 := BitVec.ofNat 8 (y.val + 28)
    let X : BitVec 8 := BitVec.ofNat 8 (x.val * 256 / 240)
    bitmapAddr x y =
      (Y.extractLsb' 6 2 ++ Y.extractLsb' 0 3 ++ Y.extractLsb' 3 3 ++ X.extractLsb' 3 5).toNat ∧
    attrAddr x y = (0b110#3 ++ Y.extractLsb' 3 5 ++ X.extractLsb' 3 5).toNat ∧
    bitmapAddr x y < 6144 ∧ 6240 ≤ attrAddr x y ∧ attrAddr x y ≤ 6815

/-- The 192 bitmap rows tile the bitmap region: no two rows share an offset and every multiple of 32 below 6144 is one
(41_address_generation.md R113, the spec's own inference). -/
def Obligations.BitmapRowsTileTheRegion : Prop :=
  (∀ r q : SrcRow, rowOffset r = rowOffset q → r = q) ∧
  (∀ k : Fin 192, ∃ r : SrcRow, rowOffset r = 32 * k.val)

/-- The resampler: `x + x/15`, strictly increasing, missing exactly the columns 15, 31, ..., 255, and giving 8 columns
to an even cell and 7 to an odd one (41_address_generation.md R116, the spec's own inference). -/
def Obligations.ResamplerSkipsEverySixteenthColumn : Prop :=
  (∀ x : DstCol, (srcCol x).val = x.val + x.val / 15) ∧
  (∀ x z : DstCol, x < z → srcCol x < srcCol z) ∧
  (∀ c : SrcCol, (∃ x : DstCol, srcCol x = c) ↔ c.val % 16 ≠ 15) ∧
  (∀ k : Fin 32, (List.finRange 240).countP (fun x => byteCol (srcCol x) == k.val) =
    if k.val % 2 = 0 then 8 else 7)

/-! ### Colour resolution -/

/-- The four stages of colour resolution in numbers: attribute fields, flash-phase mux, bright promotion, pixel select
(R131, R132, R133, R134). -/
def Obligations.ColourStagesFollowTheRules : Prop :=
  (∀ attr : Byte, (attrInk attr).toNat = attr.toNat % 8 ∧ (attrPaper attr).toNat = attr.toNat / 8 % 8 ∧
    attrBright attr = decide (attr &&& 0x40#8 ≠ 0#8) ∧ attrFlash attr = decide (attr &&& 0x80#8 ≠ 0#8)) ∧
  (∀ (flash flag : Bool) (ink paper : BitVec 3), flashMux flash flag (ink, paper) =
    if flash = true ∧ flag = true then (paper, ink) else (ink, paper)) ∧
  (∀ (bright : Bool) (c : BitVec 3),
    (promote bright c).toNat = if bright = true then c.toNat ||| 8 else c.toNat) ∧
  (∀ (bmp : Byte) (bit : Nat) (ink paper : BitVec 4), pixelSelect bmp bit ink paper =
    if bmp.toNat / 2 ^ bit % 2 = 1 then ink else paper)

/-- `ColourIndex` in closed form: the bright bit above the field that the bitmap bit, exchanged by the flash, selects
(42_colour_resolution.md R136, the spec's own inference). -/
def Obligations.ColourIndexClosedForm : Prop :=
  ∀ (attr bmp : Byte) (bit : Nat) (flag : Bool),
    colourIndex attr bmp bit flag =
      BitVec.ofBool (attr.getLsbD 6) ++
        (if (bmp.getLsbD bit ^^ (attr.getLsbD 7 && flag)) = true
          then attr.extractLsb' 0 3 else attr.extractLsb' 3 3)

/-- The flash swap and the bright promotion commute (42_colour_resolution.md R137, the spec's own inference). -/
def Obligations.FlashSwapCommutesWithPromotion : Prop :=
  ∀ (flash flag bright : Bool) (ink paper : BitVec 3),
    ((flashMux flash flag (ink, paper)).map (promote bright) (promote bright)) =
      if flash = true ∧ flag = true then (promote bright paper, promote bright ink)
      else (promote bright ink, promote bright paper)

/-! ### RENDER_FRAME -/

/-- With a buffer and a declared length of at least 6912, `RENDER_FRAME` completes with response 0 and writes into every
cell the palette word the formulas give for it, under the FlashPhase after the advance
(43_render_frame.md R151, R152, R154, R156, the last the spec's own inference; the checks are its decisions D9 to D11). -/
def Obligations.RenderFrameDrawsEveryPixel : Prop :=
  ∀ (s : State) (border : Nat), s.bufPresent = true → 6912 ≤ s.srcLen.toNat →
    ∃ t, exec (.renderFrame border) s = .next t ∧ t.statusErr = .ok ∧
      ∀ x y : Nat, x < 240 → y < 135 →
        let flag := if s.flashCnt.toNat = 15 then !s.flashFlag else s.flashFlag
        let srcY := y + 28
        let srcX := x * 256 / 240
        let bmp := srcRead s (srcY / 64 * 2048 + srcY % 8 * 256 + srcY % 64 / 8 * 32 + srcX / 8)
        let attr := srcRead s (6144 + srcY / 8 * 32 + srcX / 8)
        let inkSelected := bmp.getLsbD (7 - srcX % 8) ^^ (attr.getLsbD 7 && flag)
        let colour := if inkSelected = true then attr.toNat % 8 else attr.toNat / 8 % 8
        t.flashFlag = flag ∧
        dstRead t (y * 240 + x) =
          s.pal[(if attr.getLsbD 6 = true then 8 else 0) + colour]?

/-- An accepted render puts out one Present event with the four fixed numbers and the 32400 words of the buffer it has
just written, in index order (43_render_frame.md R158, 20_memory.md R53; the event is the spec's decision D22, the log
of events the model's, log entry 2). -/
def Obligations.RenderFramePresentsTheWholeBuffer : Prop :=
  ∀ (s : State) (border : Nat), s.bufPresent = true → 6912 ≤ s.srcLen.toNat →
    ∃ (t : State) (data : List Pixel), exec (.renderFrame border) s = .next t ∧
      t.events = .present 0 0 240 135 data :: s.events ∧ data.length = 32400 ∧
      (∀ p, p < 32400 → data[p]? = dstRead t p) ∧ (∀ p, 32400 ≤ p → dstRead t p = none)

/-- The frame of `RENDER_FRAME`: whatever it answers, `SRC_LEN`, `PAL`, the strap, every byte of `SRC` and the host's
queue stay; and where it takes a fault, every register, the FlashPhase, every cell of `DST` and the events stay too
(43_render_frame.md R161, the spec's own inference; the cells an accepted render writes are 0 to 32399). -/
def Obligations.RenderFrameChangesNothingElse : Prop :=
  ∀ (s t : State) (border : Nat), exec (.renderFrame border) s = .next t →
    t.srcLen = s.srcLen ∧ t.pal = s.pal ∧ t.bufPresent = s.bufPresent ∧ t.host = s.host ∧
    (∀ a, Memory.read t.src a = Memory.read s.src a) ∧
    (t.statusErr = .ok → ∀ p, 32400 ≤ p → dstRead t p = none) ∧
    (t.statusErr ≠ .ok → t.flashCnt = s.flashCnt ∧ t.flashFlag = s.flashFlag ∧
      t.events = s.events ∧ t.freeCount = s.freeCount ∧ ∀ p, dstRead t p = dstRead s p)

/-- An instance without a buffer answers every `RENDER_FRAME`, whatever the declared length, with `BufferAbsent`, code 2,
and changes nothing else (60_exceptions.md R182, R185, R186, the spec's decisions D9, D10, D14, D15). -/
def Obligations.RenderWithoutBufferTakesBufferAbsent : Prop :=
  ∀ (s : State) (border : Nat), s.bufPresent = false →
    exec (.renderFrame border) s = .next { s with statusErr := .bufferAbsent } ∧
    Response.bufferAbsent.code = 2#4

/-- With a buffer and a declared length below 6912, `RENDER_FRAME` takes `InvalidFrameSize`, code 3, and changes nothing
else (60_exceptions.md R183, R186, the spec's decisions D10, D11, D14). -/
def Obligations.ShortFrameTakesInvalidFrameSize : Prop :=
  ∀ (s : State) (border : Nat), s.bufPresent = true → s.srcLen.toNat < 6912 →
    exec (.renderFrame border) s = .next { s with statusErr := .invalidFrameSize } ∧
    Response.invalidFrameSize.code = 3#4

/-- `RENDER_FRAME` ignores its border operand (43_render_frame.md R160, the spec's decision D12). -/
def Obligations.RenderFrameIgnoresBorder : Prop :=
  ∀ (s : State) (b c : Nat), exec (.renderFrame b) s = exec (.renderFrame c) s

/-- One pixel step writes one whole word at `PIX`: the palette word of the index that `ColourIndex` gives for the two
bytes at the spec's addresses and the bit of that pixel. It leaves every other cell alone and adds 1 to `PIX` (R154). -/
def Obligations.PixelStepWritesOneCell : Prop :=
  ∀ (s : State) (c : Scan), c.pix < 32400 → Memory.wf c.dst →
    let srcY := c.pix / 240 + 28
    let srcX := c.pix % 240 * 256 / 240
    let bmp := srcRead s (srcY / 64 * 2048 + srcY % 8 * 256 + srcY % 64 / 8 * 32 + srcX / 8)
    let attr := srcRead s (6144 + srcY / 8 * 32 + srcX / 8)
    (pixelStep s c).pix = c.pix + 1 ∧ Memory.wf (pixelStep s c).dst ∧
    Memory.read (pixelStep s c).dst c.pix =
      some (palRead s (colourIndex attr bmp (7 - srcX % 8) s.flashFlag)) ∧
    ∀ q, q ≠ c.pix → Memory.read (pixelStep s c).dst q = Memory.read c.dst q

/-- The 32400 pixel steps and the atomic transition agree: the scan ends with `PIX` at 32400 and the command run by
scanning answers what `exec` answers (43_render_frame.md section 2 and R157, the spec's own inference). The premise is the
model's invariant. -/
def Obligations.PixelScanAgreesWithAtomicRender : Prop :=
  ∀ (s : State) (border : Nat), s.Inv →
    (scanFrame s).pix = 32400 ∧ renderByScan s = exec (.renderFrame border) s

/-- The buffer and the Present of a render depend only on the palette, the flag after the advance and the bits of the
frame the spec lists as read: rows 28 to 162 of the bitmap without bit 0 of the odd byte columns, and attribute rows 3 to
20. The old buffer, the count, the border, the length and every other bit have no influence
(20_memory.md R43 and 43_render_frame.md R157, the spec's own inferences). -/
def Obligations.RenderDependsOnlyOnTheReadSet : Prop :=
  ∀ (s₁ s₂ : State) (b₁ b₂ : Nat),
    s₁.bufPresent = true → 6912 ≤ s₁.srcLen.toNat → s₂.bufPresent = true → 6912 ≤ s₂.srcLen.toNat →
    s₁.pal = s₂.pal → (advanceFlash s₁).flashFlag = (advanceFlash s₂).flashFlag →
    (∀ (r : SrcRow) (c k : Nat), 28 ≤ r.val → r.val ≤ 162 → c < 32 → k < 8 → (c % 2 = 1 → k ≠ 0) →
      (srcRead s₁ (rowOffset r + c)).getLsbD k = (srcRead s₂ (rowOffset r + c)).getLsbD k) →
    (∀ r c : Nat, 3 ≤ r → r ≤ 20 → c < 32 →
      srcRead s₁ (6144 + r * 32 + c) = srcRead s₂ (6144 + r * 32 + c)) →
    ∃ t₁ t₂ : State, exec (.renderFrame b₁) s₁ = .next t₁ ∧ exec (.renderFrame b₂) s₂ = .next t₂ ∧
      t₁.dst = t₂.dst ∧ t₁.events.head? = t₂.events.head?

/-- Two successive renders of one fully placed frame give the same buffer, unless the second is a 16th one and the frame
has a flashing cell of two different colours (43_render_frame.md R162 item 7, R163; the first is the spec's own
inference). -/
def Obligations.RepeatedRenderGivesTheSameBuffer : Prop :=
  ∀ (s : State) (b c : Nat), s.bufPresent = true → 6912 ≤ s.srcLen.toNat → framePlaced s →
    ((advanceFlash s).flashCnt.toNat ≠ 15 ∨
      ∀ a, 6240 ≤ a → a ≤ 6815 → (srcRead s a).getLsbD 7 = false ∨
        (srcRead s a).toNat % 8 = (srcRead s a).toNat / 8 % 8) →
    ∃ t u : State, exec (.renderFrame b) s = .next t ∧ exec (.renderFrame c) t = .next u ∧ u.dst = t.dst

/-- A frame of 6912 zero bytes gives a buffer filled with palette entry 0, whatever the FlashPhase
(42_colour_resolution.md R138, the spec's own inference from the source's end-to-end scenario). -/
def Obligations.AllZeroFrameIsPaletteZero : Prop :=
  ∀ (s : State) (border : Nat), s.bufPresent = true → 6912 ≤ s.srcLen.toNat →
    (∀ a, a < 6912 → Memory.read s.src a = some 0#8) →
    ∃ t, exec (.renderFrame border) s = .next t ∧ ∀ p, p < 32400 → dstRead t p = s.pal[0]?

/-! ### RENDER_BORDER -/

/-- `RENDER_BORDER border`, encoded as `0x0200 | border`: up to 15 it is a no-op with response 0, above 15 it takes
`InvalidColorIndex`, response 4; nothing but `STATUS.ERR` changes (R170). -/
def Obligations.RenderBorderChecksAndDoesNothing : Prop :=
  (∀ b, b < 256 → encode (.renderBorder b) = 0x0200#16 ||| BitVec.ofNat 16 b) ∧
  (∀ (s : State) (border : Nat), border ≤ 15 →
    exec (.renderBorder border) s = .next { s with statusErr := .ok }) ∧
  (∀ (s : State) (border : Nat), 15 < border →
    exec (.renderBorder border) s = .next { s with statusErr := .invalidColorIndex }) ∧
  Response.ok.code = 0#4 ∧ Response.invalidColorIndex.code = 4#4

/-! ### Host registers, the source space and reset -/

/-- A register read returns the register's value to the host and changes nothing: `CMD` reads 0; `STATUS` holds `ERR` and
`BUF_OK`, `FLASH` the count and the flag, the upper bits 0; `SRC_LEN` reads back (10_state.md R21 to R25, the spec's
decisions D2, D14, D16, D25; the log of events is the model's, log entry 2). -/
def Obligations.RegisterReadsHaveNoSideEffect : Prop :=
  ∀ (s : State) (r : HostReg) (rest : List HostAction), s.host = .read r :: rest →
    ∃ d, step s = .next { s with host := rest, events := .readData d :: s.events } ∧
      (r = .cmd → d = .cmd 0#16) ∧
      (r = .status → ∃ v, d = .status v ∧
        v.toNat = s.statusErr.code.toNat + (if s.bufPresent = true then 16 else 0)) ∧
      (r = .srcLen → d = .srcLen s.srcLen) ∧
      (r = .flash → ∃ v, d = .flash v ∧
        v.toNat = s.flashCnt.toNat + (if s.flashFlag = true then 16 else 0))

/-- A write of `SRC_LEN` stores all 32 bits and changes nothing else; a write of `STATUS` or `FLASH` is ignored
(10_state.md R22 to R25, the spec's decisions D11 and D25). -/
def Obligations.RegisterWritesStoreOnlyTheLength : Prop :=
  ∀ (s : State) (rest : List HostAction),
    (∀ n, s.host = .write (.srcLen n) :: rest → step s = .next { s with host := rest, srcLen := n }) ∧
    (∀ v, s.host = .write (.status v) :: rest → step s = .next { s with host := rest }) ∧
    (∀ v, s.host = .write (.flash v) :: rest → step s = .next { s with host := rest })

/-- An access to a register number of 4 or more is refused (10_state.md R25, the spec's decision D25). -/
def Obligations.AbsentRegisterIsRefused : Prop :=
  ∀ (s : State) (k : Nat) (rest : List HostAction), s.host = .accessAbsent k :: rest →
    step s = .refused (.absentRegister (4 + k))

/-- A load of `SRC` places exactly its bytes: each reads back as placed, every other offset reads as before, and nothing
else changes (20_memory.md R41, the spec's decision D19; the load as one action is the model's, log entry 8). -/
def Obligations.LoadPlacesExactlyItsBytes : Prop :=
  ∀ (s : State) (offset : Nat) (bytes : List Byte) (rest : List HostAction),
    s.host = .loadSrc offset bytes :: rest → offset + bytes.length ≤ 4294967295 → Memory.wf s.src →
    ∃ t, step s = .next t ∧
      (∀ i (h : i < bytes.length), srcRead t (offset + i) = bytes[i]) ∧
      (∀ a, a < offset ∨ offset + bytes.length ≤ a → Memory.read t.src a = Memory.read s.src a) ∧
      t = { s with host := rest, src := t.src }

/-- Reset, between commands or in one: the FlashPhase, `STATUS.ERR` and `SRC_LEN` at 0 and no `DST` cell with a value;
`STATUS` reads as the strap alone; no event; `PAL`, the strap and `SRC` untouched (10_state.md R29 and
70_reset_and_hazards.md R210 to R213, the spec's decisions D6, D8, D9, D11, D16, D26; log entry 10). -/
def Obligations.ResetRestoresTheResetValues : Prop :=
  ∀ (s : State) (rest : List HostAction),
    (s.host = .reset :: rest ∨ ∃ w, s.host = .resetDuring w :: rest) →
    ∃ t, step s = .next t ∧ (flashReg t).toNat = 0 ∧ t.srcLen.toNat = 0 ∧ t.statusErr = .ok ∧
      (statusReg t).toNat = (if s.bufPresent = true then 16 else 0) ∧
      (∀ p, dstRead t p = none) ∧ t.events = s.events ∧ t.pal = s.pal ∧
      t.bufPresent = s.bufPresent ∧ t.src = s.src ∧ t.host = rest

/-- What `State.reset` holds: the reset values of an instance with a buffer, nothing placed, pending or put out
(10_state.md R29 and 70_reset_and_hazards.md R213, the spec's decisions; the strap is log entry 4, the empty `SRC`, queue
and events are log entries 6, 1 and 2). -/
def Obligations.MachineAfterReset : Prop :=
  (flashReg State.reset).toNat = 0 ∧ State.reset.srcLen.toNat = 0 ∧ statusReg State.reset = 0x10#8 ∧
  (∀ p, dstRead State.reset p = none) ∧ State.reset.src = [] ∧ State.reset.host = [] ∧
  State.reset.events = []

/-- The boot sequence succeeds: after reset, a load of a whole frame and a write of its length, a `RENDER_FRAME` of an
instance with a buffer draws and presents; before the length is written it takes `InvalidFrameSize`
(70_reset_and_hazards.md R214, the spec's decision D11; the one Present is 43_render_frame.md R159). -/
def Obligations.BootSequenceRenders : Prop :=
  ∀ (s : State) (frame : List Byte) (w : CmdWord) (rest : List HostAction),
    s.bufPresent = true → 6912 ≤ frame.length → frame.length < 4294967296 → w.toNat / 256 = 1 →
    (s.host = .reset :: .loadSrc 0 frame :: .write (.srcLen (BitVec.ofNat 32 frame.length)) ::
        .write (.cmd w) :: rest →
      ∃ t : State, core.run 4 s = .next t ∧ t.statusErr = .ok ∧ (flashReg t).toNat = 1 ∧
        presentCount t.events = presentCount s.events + 1) ∧
    (s.host = .reset :: .loadSrc 0 frame :: .write (.cmd w) :: rest →
      ∃ t : State, core.run 3 s = .next t ∧ t.statusErr = .invalidFrameSize ∧ t.events = s.events)

/-! ### Whole-machine rules -/

/-- No step changes the palette or the strap (10_state.md R18, R26, the spec's decisions D9 and D17; that State holds
them is the model's choice, log entry 3), and only a load changes `SRC` (20_memory.md R41). -/
def Obligations.ConfigurationAndSourceAreNeverWritten : Prop :=
  ∀ s t : State, step s = .next t →
    t.pal = s.pal ∧ t.bufPresent = s.bufPresent ∧
    (t.src = s.src ∨ ∃ offset bytes rest, s.host = .loadSrc offset bytes :: rest)

/-- `DST` changes only in an accepted render, which leaves a value in every cell, and in a reset, which leaves none; and
`SRC_LEN` changes only in its own write and in a reset (10_state.md R15, R23, R29, 20_memory.md R46; partly the spec's
decisions and inferences). -/
def Obligations.BufferAndLengthHaveOneWriterEach : Prop :=
  ∀ s t : State, step s = .next t →
    (rendersNext s = false → resetsNext s = false → t.dst = s.dst) ∧
    (rendersNext s = true → ∀ p, p < 32400 → (dstRead t p).isSome) ∧
    (resetsNext s = true → ∀ p, dstRead t p = none) ∧
    (t.srcLen = s.srcLen ∨ resetsNext s = true ∨
      ∃ n rest, s.host = .write (.srcLen n) :: rest ∧ t.srcLen = n)

/-- An accepted render emits exactly one Present event, with the words of the buffer as its last write leaves it, and
nothing else emits one; so over any run the Present events are as many as the accepted renders (R159). -/
def Obligations.PresentsAreTheAcceptedRenders : Prop :=
  (∀ s t : State, step s = .next t →
    (rendersNext s = true → t.statusErr = .ok ∧
      t.events = .present 0 0 240 135 (t.dst.map Prod.snd) :: s.events) ∧
    (rendersNext s = false → presentCount t.events = presentCount s.events)) ∧
  (∀ (n : Nat) (s t : State), core.run n s = .next t →
    presentCount t.events = presentCount s.events + acceptedRenders n s)

/-- From one reset to the next, the register `FLASH` counts the Present events modulo 32. Every step that is no reset
keeps `FLASH` minus the number of Present events, modulo 32; every reset puts `FLASH` to 0 and presents nothing. So over
any run without a reset `FLASH` grows, modulo 32, by exactly the number of Present events put out in it, from a reset
step as from the machine after reset. No clause needs a premise on the log, which a reset does not clear (10_state.md
R24, R29, 40_flash_phase.md R101 to R103, R105, 43_render_frame.md R159; partly the spec's decisions and inferences; the
log is log entry 2). -/
def Obligations.FlashCountsThePresents : Prop :=
  (∀ s t : State, step s = .next t →
    (resetsNext s = false →
      ((flashReg t).toNat + presentCount s.events) % 32 =
        ((flashReg s).toNat + presentCount t.events) % 32) ∧
    (resetsNext s = true →
      (flashReg t).toNat = 0 ∧ presentCount t.events = presentCount s.events)) ∧
  (∀ (n : Nat) (s t : State), resetFree n s = true → core.run n s = .next t →
    ∃ k, presentCount t.events = presentCount s.events + k ∧
      (flashReg t).toNat = ((flashReg s).toNat + k) % 32) ∧
  (flashReg State.reset).toNat = 0 ∧ presentCount State.reset.events = 0

/-- Every step keeps the invariant: `SRC` canonical and in its space, `DST` holding a value in no cell or in every cell
0 to 32399, no cells without a buffer, and only whole frames presented (10_state.md R15, R26, 20_memory.md R46, 43_render_frame.md R158;
the canonical forms are log entries 5 and 8). -/
def Obligations.StepKeepsTheMachineInvariant : Prop :=
  ∀ s t : State, s.Inv → step s = .next t → t.Inv

/-- The machine after reset meets the invariant (10_state.md R29). -/
def Obligations.ResetMeetsTheMachineInvariant : Prop := State.reset.Inv
end

