-- ==== Sys2Proof/Laws/Memory.lean ====
section
/-! SUPPORT. The laws of a memory: a read after a write, and that every operation keeps the canonical form. -/

namespace Sys2Proof.Machine

variable {α : Type}

/-- A read of the address just written gives the value written. -/
theorem Memory.read_write_same (m : Memory α) (a : Nat) (v : α) :
    Memory.read (Memory.write m a v) a = some v := by
  induction m with
  | nil => simp [Memory.write, Memory.read]
  | cons c rest ih =>
    obtain ⟨b, u⟩ := c
    by_cases hab : a = b
    · simp [Memory.write, Memory.read, hab]
    · by_cases hlt : a < b
      · simp [Memory.write, Memory.read, hab, hlt]
      · simp [Memory.write, Memory.read, hab, hlt, ih]

/-- Nothing is held below the first address of a canonical memory. -/
theorem Memory.read_below (m : Memory α) (a : Nat) (h : ∀ c ∈ m, a < c.1) :
    Memory.read m a = none := by
  cases m with
  | nil => rfl
  | cons c rest =>
    have hc : a < c.1 := h c (by simp)
    simp [Memory.read, hc, Nat.ne_of_lt hc]

/-- A write leaves every other address alone. -/
theorem Memory.read_write_other (m : Memory α) (hm : Memory.wf m) (a b : Nat) (v : α) (hne : b ≠ a) :
    Memory.read (Memory.write m a v) b = Memory.read m b := by
  induction m with
  | nil => by_cases hb : b < a <;> simp [Memory.write, Memory.read, hne, hb]
  | cons c rest ih =>
    obtain ⟨k, u⟩ := c
    have hrest : Memory.wf rest := (List.pairwise_cons.mp hm).2
    have hk : ∀ c ∈ rest, k < c.1 := fun c hc =>
      (List.pairwise_cons.mp hm).1 _ (List.mem_map_of_mem hc)
    by_cases hak : a = k
    · subst hak
      simp [Memory.write, Memory.read, hne]
    · by_cases hlt : a < k
      · simp only [Memory.write, hak, hlt, if_true, if_false, Memory.read, hne]
        by_cases hb : b < a
        · simp [hb, Nat.ne_of_lt (Nat.lt_trans hb hlt), Nat.lt_trans hb hlt]
        · simp [hb]
      · simp only [Memory.write, hak, hlt, if_false, Memory.read, ih hrest]

/-- The addresses of a memory after a write are the written one and the ones before. -/
theorem Memory.mem_write_fst (m : Memory α) (a : Nat) (v : α) (c : Nat × α)
    (h : c ∈ Memory.write m a v) : c.1 = a ∨ c ∈ m := by
  induction m with
  | nil => simp_all [Memory.write]
  | cons d rest ih =>
    obtain ⟨k, u⟩ := d
    simp only [Memory.write] at h
    split at h
    · rcases List.mem_cons.mp h with rfl | h
      · exact .inl rfl
      · exact .inr (List.mem_cons_of_mem _ h)
    · split at h
      · rcases List.mem_cons.mp h with rfl | h
        · exact .inl rfl
        · exact .inr h
      · rcases List.mem_cons.mp h with rfl | h
        · exact .inr (by simp)
        · exact (ih h).imp_right (List.mem_cons_of_mem _)

/-- A write keeps the canonical form. -/
theorem Memory.write_wf (m : Memory α) (hm : Memory.wf m) (a : Nat) (v : α) :
    Memory.wf (Memory.write m a v) := by
  induction m with
  | nil => simp [Memory.write, Memory.wf]
  | cons c rest ih =>
    obtain ⟨k, u⟩ := c
    have hrest : Memory.wf rest := (List.pairwise_cons.mp hm).2
    have hk : ∀ x ∈ rest.map Prod.fst, k < x := (List.pairwise_cons.mp hm).1
    by_cases hak : a = k
    · subst hak
      simpa [Memory.write, Memory.wf] using hm
    · by_cases hlt : a < k
      · simp only [Memory.write, hak, hlt, if_true, if_false]
        refine List.pairwise_cons.mpr ⟨fun x hx => ?_, hm⟩
        rcases List.mem_cons.mp hx with rfl | hx
        · exact hlt
        · exact Nat.lt_trans hlt (hk x hx)
      · simp only [Memory.write, hak, hlt, if_false]
        refine List.pairwise_cons.mpr ⟨fun x hx => ?_, ih hrest⟩
        obtain ⟨d, hd, rfl⟩ := List.mem_map.mp hx
        rcases Memory.mem_write_fst rest a v d hd with h | h
        · change k < d.1
          omega
        · exact hk _ (List.mem_map_of_mem h)

/-- Placing bytes keeps the canonical form. -/
theorem Memory.place_wf (m : Memory α) (hm : Memory.wf m) (a : Nat) (vs : List α) :
    Memory.wf (Memory.place m a vs) := by
  induction vs generalizing m a with
  | nil => exact hm
  | cons v vs ih => exact ih _ (Memory.write_wf m hm a v) _

/-- The addresses after placing bytes are the ones before and the ones placed at. -/
theorem Memory.mem_place_fst (m : Memory α) (a : Nat) (vs : List α) (c : Nat × α)
    (h : c ∈ Memory.place m a vs) : (a ≤ c.1 ∧ c.1 < a + vs.length) ∨ c ∈ m := by
  induction vs generalizing m a with
  | nil => exact .inr h
  | cons v vs ih =>
    rcases ih _ _ h with ⟨h1, h2⟩ | h
    · left
      simp only [List.length_cons]
      omega
    · rcases Memory.mem_write_fst m a v c h with h | h
      · left
        simp only [List.length_cons]
        omega
      · exact .inr h

/-- Placing bytes leaves every address outside the range alone. -/
theorem Memory.read_place_outside (m : Memory α) (hm : Memory.wf m) (a : Nat) (vs : List α) (b : Nat)
    (hb : b < a ∨ a + vs.length ≤ b) : Memory.read (Memory.place m a vs) b = Memory.read m b := by
  induction vs generalizing m a with
  | nil => rfl
  | cons v vs ih =>
    simp only [List.length_cons] at hb
    have hrest := ih (Memory.write m a v) (Memory.write_wf m hm a v) (a + 1) (by omega)
    have hother := Memory.read_write_other m hm a b v (by omega)
    simpa only [Memory.place, hother] using hrest

/-- An address that no entry names holds nothing. -/
theorem Memory.read_unlisted (m : Memory α) (a : Nat) (h : a ∉ m.map Prod.fst) :
    Memory.read m a = none := by
  induction m with
  | nil => rfl
  | cons c rest ih =>
    obtain ⟨k, u⟩ := c
    simp only [List.map_cons, List.mem_cons, not_or] at h
    simp [Memory.read, h.1, ih h.2]

/-- A canonical memory reads, at the address of an entry, what the entry holds. -/
theorem Memory.read_listed (m : Memory α) (hm : Memory.wf m) (a : Nat) (v : α) (h : (a, v) ∈ m) :
    Memory.read m a = some v := by
  induction m with
  | nil => simp at h
  | cons c rest ih =>
    obtain ⟨k, u⟩ := c
    have hk : ∀ x ∈ rest.map Prod.fst, k < x := (List.pairwise_cons.mp hm).1
    rcases List.mem_cons.mp h with h | h
    · cases h
      simp [Memory.read]
    · have hlt : k < a := hk a (List.mem_map_of_mem h)
      simp only [Memory.read, Nat.ne_of_gt hlt, Nat.lt_asymm hlt, if_false]
      exact ih (List.pairwise_cons.mp hm).2 h

/-- Writing past the last address of a memory appends the entry. -/
theorem Memory.write_past_end (m : Memory α) (a : Nat) (v : α) (h : ∀ c ∈ m, c.1 < a) :
    Memory.write m a v = m ++ [(a, v)] := by
  induction m with
  | nil => rfl
  | cons c rest ih =>
    obtain ⟨k, u⟩ := c
    have hk : k < a := h (k, u) (by simp)
    simp only [Memory.write, Nat.ne_of_gt hk, Nat.lt_asymm hk, if_false, List.cons_append]
    rw [ih fun c hc => h c (List.mem_cons_of_mem _ hc)]

/-- Equal memories are equal lists: two canonical memories that read alike everywhere are the same. -/
theorem Memory.ext_of_read (m n : Memory α) (hm : Memory.wf m) (hn : Memory.wf n)
    (h : ∀ a, Memory.read m a = Memory.read n a) : m = n := by
  induction m generalizing n with
  | nil =>
    cases n with
    | nil => rfl
    | cons c rest => simpa [Memory.read] using h c.1
  | cons c rest ih =>
    cases n with
    | nil => simpa [Memory.read] using h c.1
    | cons d rest' =>
      obtain ⟨k, u⟩ := c
      obtain ⟨l, v⟩ := d
      have hk : ∀ x ∈ rest.map Prod.fst, k < x := (List.pairwise_cons.mp hm).1
      have hl : ∀ x ∈ rest'.map Prod.fst, l < x := (List.pairwise_cons.mp hn).1
      have below : ∀ (r : Memory α) (b : Nat), (∀ x ∈ r.map Prod.fst, b < x) → ∀ a, a ≤ b →
          Memory.read r a = none := fun r b hb a ha =>
        Memory.read_below _ _ fun c hc => Nat.lt_of_le_of_lt ha (hb _ (List.mem_map_of_mem hc))
      have hkl : k = l := by
        have h1 := h k
        have h2 := h l
        simp only [Memory.read, if_true] at h1 h2
        rcases Nat.lt_trichotomy k l with hlt | heq | hgt
        · simp [Nat.ne_of_lt hlt, hlt] at h1
        · exact heq
        · simp [Nat.ne_of_lt hgt, hgt] at h2
      subst hkl
      have huv := h k
      simp only [Memory.read, if_true, Option.some.injEq] at huv
      subst huv
      rw [ih rest' (List.pairwise_cons.mp hm).2 (List.pairwise_cons.mp hn).2 fun a => ?_]
      rcases Nat.lt_or_ge k a with hlt | hge
      · simpa [Memory.read, Nat.ne_of_gt hlt, Nat.lt_asymm hlt] using h a
      · rw [below rest k hk a hge, below rest' k hl a hge]

end Sys2Proof.Machine
end

