-- ==== Sys2Proof/Laws/State.lean ====
section
/-! SUPPORT. One lemma per field per update of the state, so that no proof unfolds a record update. -/

namespace Sys2Proof.Machine

variable (s : State)

/-! ### `setErr` -/
@[simp] theorem setErr_flashCnt (r : Response) : (setErr r s).flashCnt = s.flashCnt := rfl
@[simp] theorem setErr_flashFlag (r : Response) : (setErr r s).flashFlag = s.flashFlag := rfl
@[simp] theorem setErr_dst (r : Response) : (setErr r s).dst = s.dst := rfl
@[simp] theorem setErr_statusErr (r : Response) : (setErr r s).statusErr = r := rfl
@[simp] theorem setErr_srcLen (r : Response) : (setErr r s).srcLen = s.srcLen := rfl
@[simp] theorem setErr_pal (r : Response) : (setErr r s).pal = s.pal := rfl
@[simp] theorem setErr_bufPresent (r : Response) : (setErr r s).bufPresent = s.bufPresent := rfl
@[simp] theorem setErr_src (r : Response) : (setErr r s).src = s.src := rfl
@[simp] theorem setErr_host (r : Response) : (setErr r s).host = s.host := rfl
@[simp] theorem setErr_events (r : Response) : (setErr r s).events = s.events := rfl
@[simp] theorem setErr_freeCount (r : Response) : (setErr r s).freeCount = s.freeCount := rfl

/-! ### `emit` -/
@[simp] theorem emit_flashCnt (e : Event) : (emit e s).flashCnt = s.flashCnt := rfl
@[simp] theorem emit_flashFlag (e : Event) : (emit e s).flashFlag = s.flashFlag := rfl
@[simp] theorem emit_dst (e : Event) : (emit e s).dst = s.dst := rfl
@[simp] theorem emit_statusErr (e : Event) : (emit e s).statusErr = s.statusErr := rfl
@[simp] theorem emit_srcLen (e : Event) : (emit e s).srcLen = s.srcLen := rfl
@[simp] theorem emit_pal (e : Event) : (emit e s).pal = s.pal := rfl
@[simp] theorem emit_bufPresent (e : Event) : (emit e s).bufPresent = s.bufPresent := rfl
@[simp] theorem emit_src (e : Event) : (emit e s).src = s.src := rfl
@[simp] theorem emit_host (e : Event) : (emit e s).host = s.host := rfl
@[simp] theorem emit_events (e : Event) : (emit e s).events = e :: s.events := rfl
@[simp] theorem emit_freeCount (e : Event) : (emit e s).freeCount = s.freeCount := rfl

/-! ### `setSrcLen` -/
@[simp] theorem setSrcLen_flashCnt (n : BitVec 32) : (setSrcLen n s).flashCnt = s.flashCnt := rfl
@[simp] theorem setSrcLen_flashFlag (n : BitVec 32) : (setSrcLen n s).flashFlag = s.flashFlag := rfl
@[simp] theorem setSrcLen_dst (n : BitVec 32) : (setSrcLen n s).dst = s.dst := rfl
@[simp] theorem setSrcLen_statusErr (n : BitVec 32) : (setSrcLen n s).statusErr = s.statusErr := rfl
@[simp] theorem setSrcLen_srcLen (n : BitVec 32) : (setSrcLen n s).srcLen = n := rfl
@[simp] theorem setSrcLen_pal (n : BitVec 32) : (setSrcLen n s).pal = s.pal := rfl
@[simp] theorem setSrcLen_bufPresent (n : BitVec 32) : (setSrcLen n s).bufPresent = s.bufPresent := rfl
@[simp] theorem setSrcLen_src (n : BitVec 32) : (setSrcLen n s).src = s.src := rfl
@[simp] theorem setSrcLen_host (n : BitVec 32) : (setSrcLen n s).host = s.host := rfl
@[simp] theorem setSrcLen_events (n : BitVec 32) : (setSrcLen n s).events = s.events := rfl
@[simp] theorem setSrcLen_freeCount (n : BitVec 32) : (setSrcLen n s).freeCount = s.freeCount := rfl

/-! ### `fillSrc` -/
@[simp] theorem fillSrc_flashCnt (o : Nat) (bs : List Byte) : (fillSrc o bs s).flashCnt = s.flashCnt := rfl
@[simp] theorem fillSrc_flashFlag (o : Nat) (bs : List Byte) : (fillSrc o bs s).flashFlag = s.flashFlag := rfl
@[simp] theorem fillSrc_dst (o : Nat) (bs : List Byte) : (fillSrc o bs s).dst = s.dst := rfl
@[simp] theorem fillSrc_statusErr (o : Nat) (bs : List Byte) : (fillSrc o bs s).statusErr = s.statusErr := rfl
@[simp] theorem fillSrc_srcLen (o : Nat) (bs : List Byte) : (fillSrc o bs s).srcLen = s.srcLen := rfl
@[simp] theorem fillSrc_pal (o : Nat) (bs : List Byte) : (fillSrc o bs s).pal = s.pal := rfl
@[simp] theorem fillSrc_bufPresent (o : Nat) (bs : List Byte) : (fillSrc o bs s).bufPresent = s.bufPresent := rfl
@[simp] theorem fillSrc_src (o : Nat) (bs : List Byte) : (fillSrc o bs s).src = Memory.place s.src o bs := rfl
@[simp] theorem fillSrc_host (o : Nat) (bs : List Byte) : (fillSrc o bs s).host = s.host := rfl
@[simp] theorem fillSrc_events (o : Nat) (bs : List Byte) : (fillSrc o bs s).events = s.events := rfl
@[simp] theorem fillSrc_freeCount (o : Nat) (bs : List Byte) : (fillSrc o bs s).freeCount = s.freeCount := rfl

/-! ### `takeReset` -/
@[simp] theorem takeReset_flashCnt : (takeReset s).flashCnt = 0#4 := rfl
@[simp] theorem takeReset_flashFlag : (takeReset s).flashFlag = false := rfl
@[simp] theorem takeReset_dst : (takeReset s).dst = [] := rfl
@[simp] theorem takeReset_statusErr : (takeReset s).statusErr = .ok := rfl
@[simp] theorem takeReset_srcLen : (takeReset s).srcLen = 0#32 := rfl
@[simp] theorem takeReset_pal : (takeReset s).pal = s.pal := rfl
@[simp] theorem takeReset_bufPresent : (takeReset s).bufPresent = s.bufPresent := rfl
@[simp] theorem takeReset_src : (takeReset s).src = s.src := rfl
@[simp] theorem takeReset_host : (takeReset s).host = s.host := rfl
@[simp] theorem takeReset_events : (takeReset s).events = s.events := rfl
@[simp] theorem takeReset_freeCount : (takeReset s).freeCount = s.freeCount := rfl

/-! ### `advanceFlash` -/
@[simp] theorem advanceFlash_flashCnt : (advanceFlash s).flashCnt = (flashAdvance s.flashCnt s.flashFlag).1 := rfl
@[simp] theorem advanceFlash_flashFlag : (advanceFlash s).flashFlag = (flashAdvance s.flashCnt s.flashFlag).2 := rfl
@[simp] theorem advanceFlash_dst : (advanceFlash s).dst = s.dst := rfl
@[simp] theorem advanceFlash_statusErr : (advanceFlash s).statusErr = s.statusErr := rfl
@[simp] theorem advanceFlash_srcLen : (advanceFlash s).srcLen = s.srcLen := rfl
@[simp] theorem advanceFlash_pal : (advanceFlash s).pal = s.pal := rfl
@[simp] theorem advanceFlash_bufPresent : (advanceFlash s).bufPresent = s.bufPresent := rfl
@[simp] theorem advanceFlash_src : (advanceFlash s).src = s.src := rfl
@[simp] theorem advanceFlash_host : (advanceFlash s).host = s.host := rfl
@[simp] theorem advanceFlash_events : (advanceFlash s).events = s.events := rfl
@[simp] theorem advanceFlash_freeCount : (advanceFlash s).freeCount = s.freeCount := rfl

/-! ### `drawFrame` -/
@[simp] theorem drawFrame_flashCnt : (drawFrame s).flashCnt = s.flashCnt := rfl
@[simp] theorem drawFrame_flashFlag : (drawFrame s).flashFlag = s.flashFlag := rfl
@[simp] theorem drawFrame_dst : (drawFrame s).dst = frameCells s := rfl
@[simp] theorem drawFrame_statusErr : (drawFrame s).statusErr = s.statusErr := rfl
@[simp] theorem drawFrame_srcLen : (drawFrame s).srcLen = s.srcLen := rfl
@[simp] theorem drawFrame_pal : (drawFrame s).pal = s.pal := rfl
@[simp] theorem drawFrame_bufPresent : (drawFrame s).bufPresent = s.bufPresent := rfl
@[simp] theorem drawFrame_src : (drawFrame s).src = s.src := rfl
@[simp] theorem drawFrame_host : (drawFrame s).host = s.host := rfl
@[simp] theorem drawFrame_events : (drawFrame s).events = s.events := rfl
@[simp] theorem drawFrame_freeCount : (drawFrame s).freeCount = s.freeCount + 1 := rfl

/-! ### `present` -/
@[simp] theorem present_flashCnt : (present s).flashCnt = s.flashCnt := rfl
@[simp] theorem present_flashFlag : (present s).flashFlag = s.flashFlag := rfl
@[simp] theorem present_dst : (present s).dst = s.dst := rfl
@[simp] theorem present_statusErr : (present s).statusErr = s.statusErr := rfl
@[simp] theorem present_srcLen : (present s).srcLen = s.srcLen := rfl
@[simp] theorem present_pal : (present s).pal = s.pal := rfl
@[simp] theorem present_bufPresent : (present s).bufPresent = s.bufPresent := rfl
@[simp] theorem present_src : (present s).src = s.src := rfl
@[simp] theorem present_host : (present s).host = s.host := rfl
@[simp] theorem present_events : (present s).events = presentOf s.dst :: s.events := rfl
@[simp] theorem present_freeCount : (present s).freeCount = s.freeCount := rfl

/-! ### `takeAction` -/
@[simp] theorem takeAction_flashCnt (rest : List HostAction) : (takeAction rest s).flashCnt = s.flashCnt := rfl
@[simp] theorem takeAction_flashFlag (rest : List HostAction) : (takeAction rest s).flashFlag = s.flashFlag := rfl
@[simp] theorem takeAction_dst (rest : List HostAction) : (takeAction rest s).dst = s.dst := rfl
@[simp] theorem takeAction_statusErr (rest : List HostAction) : (takeAction rest s).statusErr = s.statusErr := rfl
@[simp] theorem takeAction_srcLen (rest : List HostAction) : (takeAction rest s).srcLen = s.srcLen := rfl
@[simp] theorem takeAction_pal (rest : List HostAction) : (takeAction rest s).pal = s.pal := rfl
@[simp] theorem takeAction_bufPresent (rest : List HostAction) : (takeAction rest s).bufPresent = s.bufPresent := rfl
@[simp] theorem takeAction_src (rest : List HostAction) : (takeAction rest s).src = s.src := rfl
@[simp] theorem takeAction_host (rest : List HostAction) : (takeAction rest s).host = rest := rfl
@[simp] theorem takeAction_events (rest : List HostAction) : (takeAction rest s).events = s.events := rfl
@[simp] theorem takeAction_freeCount (rest : List HostAction) : (takeAction rest s).freeCount = s.freeCount := rfl

/-! ### `queueCommand` -/
@[simp] theorem queueCommand_flashCnt (w : CmdWord) : (queueCommand w s).flashCnt = s.flashCnt := rfl
@[simp] theorem queueCommand_flashFlag (w : CmdWord) : (queueCommand w s).flashFlag = s.flashFlag := rfl
@[simp] theorem queueCommand_dst (w : CmdWord) : (queueCommand w s).dst = s.dst := rfl
@[simp] theorem queueCommand_statusErr (w : CmdWord) : (queueCommand w s).statusErr = s.statusErr := rfl
@[simp] theorem queueCommand_srcLen (w : CmdWord) : (queueCommand w s).srcLen = s.srcLen := rfl
@[simp] theorem queueCommand_pal (w : CmdWord) : (queueCommand w s).pal = s.pal := rfl
@[simp] theorem queueCommand_bufPresent (w : CmdWord) : (queueCommand w s).bufPresent = s.bufPresent := rfl
@[simp] theorem queueCommand_src (w : CmdWord) : (queueCommand w s).src = s.src := rfl
@[simp] theorem queueCommand_host (w : CmdWord) : (queueCommand w s).host = .write (.cmd w) :: s.host := rfl
@[simp] theorem queueCommand_events (w : CmdWord) : (queueCommand w s).events = s.events := rfl
@[simp] theorem queueCommand_freeCount (w : CmdWord) : (queueCommand w s).freeCount = s.freeCount := rfl

/-! ### `rendered`: the fields an accepted render writes, and the ones it leaves -/
theorem rendered_flashCnt : (rendered s).flashCnt = (flashAdvance s.flashCnt s.flashFlag).1 := rfl
theorem rendered_flashFlag : (rendered s).flashFlag = (flashAdvance s.flashCnt s.flashFlag).2 := rfl
theorem rendered_dst : (rendered s).dst = frameCells (advanceFlash s) := rfl
theorem rendered_events :
    (rendered s).events = presentOf (frameCells (advanceFlash s)) :: s.events := rfl
theorem rendered_freeCount : (rendered s).freeCount = s.freeCount + 1 := rfl
@[simp] theorem rendered_statusErr : (rendered s).statusErr = s.statusErr := rfl
@[simp] theorem rendered_srcLen : (rendered s).srcLen = s.srcLen := rfl
@[simp] theorem rendered_pal : (rendered s).pal = s.pal := rfl
@[simp] theorem rendered_bufPresent : (rendered s).bufPresent = s.bufPresent := rfl
@[simp] theorem rendered_src : (rendered s).src = s.src := rfl
@[simp] theorem rendered_host : (rendered s).host = s.host := rfl

/-! ### Views that an update leaves alone -/
@[simp] theorem srcRead_setErr (r : Response) (a : Nat) : srcRead (setErr r s) a = srcRead s a := rfl
@[simp] theorem srcRead_advanceFlash (a : Nat) : srcRead (advanceFlash s) a = srcRead s a := rfl
@[simp] theorem srcRead_takeAction (rest : List HostAction) (a : Nat) :
    srcRead (takeAction rest s) a = srcRead s a := rfl
@[simp] theorem palRead_advanceFlash (i : BitVec 4) : palRead (advanceFlash s) i = palRead s i := rfl
@[simp] theorem flashReg_setErr (r : Response) : flashReg (setErr r s) = flashReg s := rfl
@[simp] theorem flashReg_emit (e : Event) : flashReg (emit e s) = flashReg s := rfl
@[simp] theorem flashReg_takeAction (rest : List HostAction) :
    flashReg (takeAction rest s) = flashReg s := rfl
@[simp] theorem frameDeclared_takeAction (rest : List HostAction) :
    frameDeclared (takeAction rest s) = frameDeclared s := rfl
@[simp] theorem frameDeclared_setErr (r : Response) :
    frameDeclared (setErr r s) = frameDeclared s := rfl
@[simp] theorem renderReady_takeAction (rest : List HostAction) :
    renderReady (takeAction rest s) = renderReady s := rfl
@[simp] theorem renderReady_setErr (r : Response) : renderReady (setErr r s) = renderReady s := rfl

end Sys2Proof.Machine
end

