-- ==== Sys2Proof/Laws/Frame.lean ====
section
/-! SUPPORT. What the buffer of a render holds, so that no proof unfolds its 32400 cells. -/

namespace Sys2Proof.Machine

variable (s : State)

/-- The cells of a frame are 0 to 32399 in order. -/
theorem frameCells_fst : (frameCells s).map Prod.fst = List.range 32400 := by
  unfold frameCells
  rw [List.map_map]
  exact List.map_coe_finRange_eq_range

/-- A frame has 32400 cells. -/
theorem frameCells_length : (frameCells s).length = 32400 := by
  have h := congrArg List.length (frameCells_fst s)
  simpa using h

/-- A frame is in canonical form. -/
theorem frameCells_wf : Memory.wf (frameCells s) := by
  unfold Memory.wf
  rw [frameCells_fst]
  exact List.pairwise_lt_range

/-- The words of a frame in index order. -/
theorem frameCells_snd : (frameCells s).map Prod.snd = (List.finRange 32400).map (pixelWord s) := by
  unfold frameCells
  rw [List.map_map]
  rfl

/-- Cell `p` of a frame holds the word of pixel `p`. -/
theorem read_frameCells (p : PixIndex) :
    Memory.read (frameCells s) p.val = some (pixelWord s p) := by
  refine Memory.read_listed _ (frameCells_wf s) _ _ ?_
  unfold frameCells
  exact List.mem_map_of_mem (List.mem_finRange p)

/-- A frame has no cell past the last pixel. -/
theorem read_frameCells_past (a : Nat) (h : 32400 ≤ a) : Memory.read (frameCells s) a = none := by
  refine Memory.read_unlisted _ _ ?_
  rw [frameCells_fst, List.mem_range]
  omega

/-- An entry of a list indexed by `Fin n`, said for every `n` so that no proof counts to 32400. -/
theorem getElem?_map_finRange {α : Type} (n : Nat) (f : Fin n → α) (p : Nat) (h : p < n) :
    ((List.finRange n).map f)[p]? = some (f ⟨p, h⟩) := by
  simp [h]

/-- Entry `p` of the words of a frame is the word of pixel `p`. -/
theorem frameCells_snd_getElem? (p : PixIndex) :
    ((frameCells s).map Prod.snd)[p.val]? = some (pixelWord s p) := by
  rw [frameCells_snd]
  exact getElem?_map_finRange 32400 (pixelWord s) p.val p.isLt

/-- Two states whose pixels all agree draw the same frame. -/
theorem frameCells_congr (t : State) (h : ∀ p, pixelWord s p = pixelWord t p) :
    frameCells s = frameCells t := by
  unfold frameCells
  exact List.map_congr_left fun p _ => by rw [h p]

end Sys2Proof.Machine
end

