-- ==== Sys2Proof/Laws/Ops.lean ====
section
/-! SUPPORT. What each command and each host action can do, said once. -/

namespace Sys2Proof.Machine

variable {s t : State}

/-- A fault is a next state that differs in `STATUS.ERR` alone. -/
theorem raise_eq (r : Response) (s : State) : raise r s = .next (setErr r s) := rfl

/-- A normal end is a next state that differs in `STATUS.ERR` alone. -/
theorem respondOk_eq (s : State) : respondOk s = .next (setErr .ok s) := rfl

theorem renderReady_eq (s : State) : renderReady s = (s.bufPresent && frameDeclared s) := rfl

/-- `RENDER_FRAME` renders if it may, and otherwise takes the first fault that applies. -/
theorem execRenderFrame_cases (border : Nat) (s : State) :
    (renderReady s = true ∧ execRenderFrame border s = .next (setErr .ok (rendered s))) ∨
    (s.bufPresent = false ∧ execRenderFrame border s = .next (setErr .bufferAbsent s)) ∨
    (s.bufPresent = true ∧ frameDeclared s = false ∧
      execRenderFrame border s = .next (setErr .invalidFrameSize s)) := by
  unfold execRenderFrame
  cases hb : s.bufPresent
  · exact .inr (.inl ⟨rfl, rfl⟩)
  · cases hf : frameDeclared s
    · exact .inr (.inr ⟨rfl, rfl, rfl⟩)
    · exact .inl ⟨by simp [renderReady, hb, hf], rfl⟩

/-- A render that may run, runs. -/
theorem execRenderFrame_of_ready (border : Nat) (h : renderReady s = true) :
    execRenderFrame border s = .next (setErr .ok (rendered s)) := by
  simp only [renderReady, Bool.and_eq_true] at h
  simp [execRenderFrame, h.1, h.2, respondOk]

/-- A render that may not run changes `STATUS.ERR` alone. -/
theorem execRenderFrame_of_not_ready (border : Nat) (h : renderReady s = false) :
    ∃ r, r ≠ .ok ∧ execRenderFrame border s = .next (setErr r s) := by
  rcases execRenderFrame_cases border s with ⟨h1, -⟩ | ⟨-, h2⟩ | ⟨-, -, h2⟩
  · simp [h] at h1
  · exact ⟨_, by simp, h2⟩
  · exact ⟨_, by simp, h2⟩

/-- `RENDER_BORDER` changes `STATUS.ERR` alone. -/
theorem execRenderBorder_cases (border : Nat) (s : State) :
    (border ≤ 15 ∧ execRenderBorder border s = .next (setErr .ok s)) ∨
    (15 < border ∧ execRenderBorder border s = .next (setErr .invalidColorIndex s)) := by
  by_cases h : border ≤ 15
  · exact .inl ⟨h, by simp [execRenderBorder, borderLegal, h, respondOk]⟩
  · exact .inr ⟨by omega, by simp [execRenderBorder, borderLegal, h, raise]⟩

/-- What a word written to `CMD` does: an accepted render, or a change of `STATUS.ERR` alone. -/
theorem issueCommand_cases (w : CmdWord) (s : State) :
    (∃ b, decode w = .ok (.renderFrame b) ∧ renderReady s = true ∧
      issueCommand w s = .next (setErr .ok (rendered s))) ∨
    (¬ (∃ b, decode w = .ok (.renderFrame b) ∧ renderReady s = true) ∧
      ∃ r, issueCommand w s = .next (setErr r s)) := by
  unfold issueCommand
  cases hd : decode w with
  | error e => exact .inr ⟨by simp, _, rfl⟩
  | ok i =>
    cases i with
    | renderFrame b =>
      cases hr : renderReady s
      · obtain ⟨r, -, h⟩ := execRenderFrame_of_not_ready b hr
        exact .inr ⟨by simp, r, h⟩
      · exact .inl ⟨b, rfl, rfl, execRenderFrame_of_ready b hr⟩
    | renderBorder b =>
      refine .inr ⟨by simp, ?_⟩
      rcases execRenderBorder_cases b s with ⟨-, h⟩ | ⟨-, h⟩
      · exact ⟨_, h⟩
      · exact ⟨_, h⟩

/-- Everything a step that answers a next state can be. -/
inductive StepCase (s : State) : State → Prop where
  /-- No host action is pending. -/
  | idle (h : s.host = []) : StepCase s s
  /-- The host resets the block. -/
  | reset (rest : List HostAction) (h : s.host = .reset :: rest) :
      StepCase s (takeReset (takeAction rest s))
  /-- The host resets the block while it executes a command. -/
  | resetDuring (w : CmdWord) (rest : List HostAction) (h : s.host = .resetDuring w :: rest) :
      StepCase s (takeReset (takeAction rest s))
  /-- A render that passes its checks. -/
  | render (w : CmdWord) (b : Nat) (rest : List HostAction) (h : s.host = .write (.cmd w) :: rest)
      (hd : decode w = .ok (.renderFrame b)) (hr : renderReady s = true) :
      StepCase s (setErr .ok (rendered (takeAction rest s)))
  /-- Any other command word. -/
  | respond (w : CmdWord) (r : Response) (rest : List HostAction)
      (h : s.host = .write (.cmd w) :: rest)
      (hn : ¬ ∃ b, decode w = .ok (.renderFrame b) ∧ renderReady s = true) :
      StepCase s (setErr r (takeAction rest s))
  /-- A write of a read-only register. -/
  | ignored (d : RegData) (rest : List HostAction) (h : s.host = .write d :: rest)
      (hd : (∃ v, d = .status v) ∨ ∃ v, d = .flash v) : StepCase s (takeAction rest s)
  /-- A write of `SRC_LEN`. -/
  | srcLen (n : BitVec 32) (rest : List HostAction) (h : s.host = .write (.srcLen n) :: rest) :
      StepCase s (setSrcLen n (takeAction rest s))
  /-- A register read. -/
  | read (r : HostReg) (rest : List HostAction) (h : s.host = .read r :: rest) :
      StepCase s (emit (.readData (regRead (takeAction rest s) r)) (takeAction rest s))
  /-- A load of `SRC`. -/
  | load (o : Nat) (bs : List Byte) (rest : List HostAction) (h : s.host = .loadSrc o bs :: rest)
      (hin : o + bs.length ≤ Config.srcSpace) : StepCase s (fillSrc o bs (takeAction rest s))

/-- The inversion of a step. -/
theorem step_cases (h : step s = .next t) : StepCase s t := by
  unfold step hostStep at h
  cases hh : s.host with
  | nil =>
    simp only [hh, Host.Outcome.next.injEq] at h
    exact h ▸ .idle hh
  | cons a rest =>
    simp only [hh] at h
    cases a with
    | reset =>
      simp only [perform, Host.Outcome.next.injEq] at h
      exact h ▸ .reset rest hh
    | resetDuring w =>
      simp only [perform, Host.Outcome.next.injEq] at h
      exact h ▸ .resetDuring w rest hh
    | read r =>
      simp only [perform, readReg, Host.Outcome.next.injEq] at h
      exact h ▸ .read r rest hh
    | accessAbsent k => simp [perform] at h
    | loadSrc o bs =>
      simp only [perform, loadBytes] at h
      split at h
      · simp only [Host.Outcome.next.injEq] at h
        exact h ▸ .load o bs rest hh ‹_›
      · simp at h
    | write d =>
      cases d with
      | status v =>
        simp only [perform, writeReg, Host.Outcome.next.injEq] at h
        exact h ▸ .ignored _ rest hh (.inl ⟨v, rfl⟩)
      | flash v =>
        simp only [perform, writeReg, Host.Outcome.next.injEq] at h
        exact h ▸ .ignored _ rest hh (.inr ⟨v, rfl⟩)
      | srcLen n =>
        simp only [perform, writeReg, Host.Outcome.next.injEq] at h
        exact h ▸ .srcLen n rest hh
      | cmd w =>
        simp only [perform, writeReg] at h
        rcases issueCommand_cases w (takeAction rest s) with ⟨b, hd, hr, hi⟩ | ⟨hn, r, hi⟩
        · rw [hi, Host.Outcome.next.injEq] at h
          exact h ▸ .render w b rest hh hd (by simpa using hr)
        · rw [hi, Host.Outcome.next.injEq] at h
          exact h ▸ .respond w r rest hh (by simpa using hn)

end Sys2Proof.Machine
end

