-- ==== Sys2Proof/Laws/PerInstr.lean ====
section
/-! SUPPORT. Statements about every command as syntax, one lemma per constructor. -/

namespace Sys2Proof.Laws

/-- The fields of a well-formed command's word are its operation code and its operand (30 R71). -/
def EncodeFields.Statement (i : Instr) : Prop :=
  i.WellFormed → opField (encode i) = opCode i ∧ (borderField (encode i)).toNat = borderOf i

theorem fields_of_append (op : BitVec 8) (b : Nat) (h : b < 256) :
    opField (op ++ BitVec.ofNat 8 b) = op ∧ (borderField (op ++ BitVec.ofNat 8 b)).toNat = b := by
  refine ⟨?_, ?_⟩
  · simp only [opField]
    exact BitVec.extractLsb'_append_eq_left
  · simp only [borderField, BitVec.extractLsb'_append_eq_right, BitVec.toNat_ofNat]
    omega

theorem EncodeFields.renderFrame (border : Nat) :
    EncodeFields.Statement (.renderFrame border) := fun h =>
  fields_of_append _ border (by simpa [Instr.WellFormed, Instr.wellFormed] using h)

theorem EncodeFields.renderBorder (border : Nat) :
    EncodeFields.Statement (.renderBorder border) := fun h =>
  fields_of_append _ border (by simpa [Instr.WellFormed, Instr.wellFormed] using h)

end Sys2Proof.Laws
end

