-- ==== Sys2Proof/Laws/Run.lean ====
section
/-! SUPPORT. Runs of several steps, and what the host's next action says about a step. -/

namespace Sys2Proof.Machine

variable {s t : State}

/-- A run goes on from the state its first step answers. -/
theorem run_step (n : Nat) (h : step s = .next t) : core.run (n + 1) s = core.run n t := by
  have h' : core.step s = .next t := h
  simp only [Host.Core.run, h']

/-- A run that answers a state took a first step that answered one. -/
theorem run_inv (n : Nat) {u : State} (h : core.run (n + 1) s = .next u) :
    ∃ t, step s = .next t ∧ core.run n t = .next u := by
  have hs : core.step s = step s := rfl
  simp only [Host.Core.run, hs] at h
  cases hc : step s with
  | next t => exact ⟨t, rfl, by simpa only [hc] using h⟩
  | fault f => cases f
  | refused r => simp only [hc, reduceCtorEq] at h

/-- The accepted renders of a run are those of its first step and those of the rest. -/
theorem acceptedRenders_step (n : Nat) (h : step s = .next t) :
    acceptedRenders (n + 1) s = (if rendersNext s then 1 else 0) + acceptedRenders n t := by
  simp only [acceptedRenders, h]

/-- A run is free of resets if its first step is no reset and the rest is free of them. -/
theorem resetFree_step (n : Nat) (h : step s = .next t) :
    resetFree (n + 1) s = (!resetsNext s && resetFree n t) := by
  simp only [resetFree, h]

/-- Taking an action from the queue has no influence on the frame a render draws. -/
theorem rendered_takeAction (rest : List HostAction) (s : State) :
    rendered (takeAction rest s) = takeAction rest (rendered s) := by
  have h : frameCells (advanceFlash (takeAction rest s)) = frameCells (advanceFlash s) :=
    frameCells_congr _ _ fun _ => rfl
  simp only [rendered, drawFrame, h]
  rfl

/-- An earlier response has no influence on the frame a render draws. -/
theorem rendered_setErr (r : Response) (s : State) : rendered (setErr r s) = setErr r (rendered s) := by
  have h : frameCells (advanceFlash (setErr r s)) = frameCells (advanceFlash s) :=
    frameCells_congr _ _ fun _ => rfl
  simp only [rendered, drawFrame, h]
  rfl

/-- Whether the next step is a reset, read off the host's next action. -/
theorem resetsNext_cons {a : HostAction} {rest : List HostAction} (h : s.host = a :: rest) :
    resetsNext s = (a == .reset || match a with | .resetDuring _ => true | _ => false) := by
  simp only [resetsNext, h]
  cases a <;> rfl

/-- A pending render that may run. -/
theorem rendersNext_of_render {w : CmdWord} {b : Nat} {rest : List HostAction}
    (h : s.host = .write (.cmd w) :: rest) (hd : decode w = .ok (.renderFrame b))
    (hr : renderReady s = true) : rendersNext s = true := by
  simp [rendersNext, h, hd, hr]

/-- Any other pending command word. -/
theorem rendersNext_of_respond {w : CmdWord} {rest : List HostAction}
    (h : s.host = .write (.cmd w) :: rest)
    (hn : ¬ ∃ b, decode w = .ok (.renderFrame b) ∧ renderReady s = true) : rendersNext s = false := by
  simp only [rendersNext, h]
  split <;> simp_all

/-- Any pending action that is no write of `CMD`. -/
theorem rendersNext_of_other {a : HostAction} {rest : List HostAction} (h : s.host = a :: rest)
    (ha : ∀ w, a ≠ .write (.cmd w)) : rendersNext s = false := by
  simp only [rendersNext, h]
  cases a with
  | write d => cases d <;> simp_all
  | _ => rfl

/-- The checks of a render, in the words of the spec. -/
theorem renderReady_iff (s : State) :
    renderReady s = true ↔ s.bufPresent = true ∧ 6912 ≤ s.srcLen.toNat := by
  simp [renderReady, frameDeclared, Config.frameMin]

end Sys2Proof.Machine
end

