-- ==== Sys2Proof/Laws/Scan.lean ====
section
/-! SUPPORT. What pixel steps do, said for every number of steps: a literal 32400 on the right of a sum of an unknown
term makes the kernel count, so instantiate these at 32400 only through `pixelSteps_from_zero_pix`. -/

namespace Sys2Proof.Machine

/-- One pixel step inside the scan. -/
theorem pixelStep_of_lt (s : State) (c : Scan) (h : c.pix < 32400) :
    pixelStep s c =
      { pix := c.pix + 1, dst := Memory.write c.dst c.pix (pixelWord s ⟨c.pix, h⟩) } := by
  simp [pixelStep, h]

/-- `PIX` after `n` pixel steps inside the scan. -/
theorem pixelSteps_pix (s : State) (n : Nat) (c : Scan) (h : c.pix + n ≤ 32400) :
    (pixelSteps s n c).pix = c.pix + n := by
  induction n generalizing c with
  | zero => rfl
  | succ n ih =>
    have hp : c.pix < 32400 := by omega
    have hs : (pixelStep s c).pix = c.pix + 1 := by rw [pixelStep_of_lt s c hp]
    rw [pixelSteps, ih _ (by omega)]
    omega

/-- `PIX` after `n` pixel steps from the start of a scan. -/
theorem pixelSteps_from_zero_pix (s : State) (n : Nat) (h : n ≤ 32400) (d : Memory Pixel) :
    (pixelSteps s n { pix := 0, dst := d }).pix = n := by
  rw [pixelSteps_pix s n { pix := 0, dst := d } (Nat.le_trans (Nat.le_of_eq (Nat.zero_add n)) h)]
  exact Nat.zero_add n

/-- The buffer after `n` pixel steps: canonical, the words of the pixels passed, and the old cells elsewhere. -/
theorem pixelSteps_dst (s : State) (n : Nat) (c : Scan) (hw : Memory.wf c.dst) (h : c.pix + n ≤ 32400) :
    Memory.wf (pixelSteps s n c).dst ∧
    (∀ p : PixIndex, c.pix ≤ p.val → p.val < c.pix + n →
      Memory.read (pixelSteps s n c).dst p.val = some (pixelWord s p)) ∧
    (∀ a, a < c.pix ∨ c.pix + n ≤ a →
      Memory.read (pixelSteps s n c).dst a = Memory.read c.dst a) := by
  induction n generalizing c with
  | zero => exact ⟨hw, fun p h1 h2 => by omega, fun _ _ => rfl⟩
  | succ n ih =>
    have hp : c.pix < 32400 := by omega
    have hs := pixelStep_of_lt s c hp
    have hpix : (pixelStep s c).pix = c.pix + 1 := by rw [hs]
    obtain ⟨iw, iin, iout⟩ := ih (pixelStep s c) (by rw [hs]; exact Memory.write_wf _ hw _ _) (by omega)
    refine ⟨iw, fun p h1 h2 => ?_, fun a ha => ?_⟩
    · by_cases hpe : p.val = c.pix
      · rw [pixelSteps, iout p.val (by omega), hs, hpe, Memory.read_write_same]
        exact congrArg (fun q => some (pixelWord s q)) (Fin.ext hpe.symm)
      · exact iin p (by omega) (by omega)
    · rw [pixelSteps, iout a (by omega), hs]
      exact Memory.read_write_other _ hw _ _ _ (by omega)

end Sys2Proof.Machine
end

