-- ==== Sys2Proof/Tests/Slice0.lean ====
section
/-! SUPPORT. Tests: the expected results come from spec/95_test_vectors.md and the worked examples of the rules.
Witnesses: for every statement with hypotheses, concrete values that meet them together. -/

namespace Sys2Proof.Tests

open Sys2Proof.Machine

/-! ### Well-formedness and encodings (30 R71 to R74, R83; 95 section 2.6) -/

theorem test_wf_refuses_wide_border :
    (Instr.renderFrame 256).wellFormed = false ∧ (Instr.renderBorder 256).wellFormed = false := by decide

theorem test_wf_accepts_255 :
    (Instr.renderFrame 255).wellFormed = true ∧ (Instr.renderBorder 255).wellFormed = true := by decide

theorem test_decode_render_frame :
    decode 0b00000001_00000011#16 = .ok (.renderFrame 3) ∧
    decode 0b00000001_11111111#16 = .ok (.renderFrame 255) := by decide

theorem test_decode_render_border :
    decode 0b00000010_00000111#16 = .ok (.renderBorder 7) ∧
    decode 0b00000010_11111111#16 = .ok (.renderBorder 255) := by decide

theorem test_decode_reserved :
    decode 0x0000#16 = .error (.reservedOp 0x00#8) ∧ decode 0x0001#16 = .error (.reservedOp 0x00#8) ∧
    decode 0x0300#16 = .error (.reservedOp 0x03#8) ∧ decode 0x8100#16 = .error (.reservedOp 0x81#8) ∧
    decode 0xFFFF#16 = .error (.reservedOp 0xFF#8) := by decide

theorem test_encode_and_written :
    encode (.renderFrame 3) = 0x0103#16 ∧ encode (.renderBorder 16) = 0x0210#16 ∧
    written (.renderBorder 7) = "RENDER_BORDER 7" := by decide

theorem test_table_words :
    decodeTableWord 16 0x0100 = some (.renderFrame 0) ∧ decodeTableWord 16 0x0200 = some (.renderBorder 0) ∧
    decodeTableWord 16 0x0300 = none ∧ decodeTableWord 8 0x01 = none := by decide

/-! ### Address generation and colours (95 sections 2.2, 2.3, 3, 4) -/

theorem test_row_offset :
    rowOffset 1 = 256 ∧ rowOffset 7 = 1792 ∧ rowOffset 8 = 32 ∧ rowOffset 63 = 2016 ∧ rowOffset 64 = 2048 ∧
    rowOffset 127 = 4064 ∧ rowOffset 191 = 6112 := by decide

theorem test_addresses :
    bitmapAddr 15 0 = 1122 ∧ attrAddr 15 0 = 6242 ∧ bitPos (srcCol 15) = 7 ∧
    bitmapAddr 100 100 = 4109 ∧ attrAddr 100 100 = 6669 ∧ bitPos (srcCol 100) = 5 ∧ dstIndex 100 100 = 24100 ∧
    bitmapAddr 239 134 = 4767 ∧ attrAddr 239 134 = 6815 ∧ bitPos (srcCol 239) = 1 ∧
    dstIndex 239 134 = 32399 := by decide

theorem test_colour_index :
    colourIndex 0x93#8 0x80#8 7 false = 3#4 ∧ colourIndex 0x93#8 0x80#8 6 false = 2#4 ∧
    colourIndex 0x93#8 0x80#8 7 true = 2#4 ∧ colourIndex 0x93#8 0x80#8 6 true = 3#4 ∧
    colourIndex 0x13#8 0x80#8 7 true = 3#4 ∧ colourIndex 0x43#8 0xFF#8 0 false = 11#4 ∧
    colourIndex 0x43#8 0x00#8 0 false = 8#4 ∧ colourIndex 0xC7#8 0xA5#8 5 true = 8#4 ∧
    colourIndex 0xC7#8 0xA5#8 6 true = 15#4 ∧ colourIndex 0xB8#8 0x00#8 3 true = 0#4 := by decide

/-- 95 section 2.1. -/
theorem test_flash_advance :
    flashAdvance 14#4 false = (15#4, false) ∧ flashAdvance 15#4 false = (0#4, true) ∧
    flashAdvance 7#4 true = (8#4, true) ∧ flashAdvance 15#4 true = (0#4, false) := by decide

/-! ### Small states -/

/-- The stand-in palette `PAL_T` of 95: entry `i` is `i * 0x1111`. -/
def palT : Vector Pixel 16 := Vector.ofFn fun i => BitVec.ofNat 16 (i.val * 0x1111)

/-- A state with a palette, a strap, a declared length and host actions; everything else as after reset. -/
def small (buf : Bool) (len : Nat) (host : List HostAction) : State :=
  { State.ofInstance palT buf with srcLen := BitVec.ofNat 32 len, host := host }

/-- The frame of 43 R164 as far as its first pixels go. -/
def sampleR164 : State := { small true 6912 [] with src := [(1120, 0x80#8), (6240, 0x93#8)] }

/-- A frame of 6912 bytes, all the same. Irreducible, so that no proof counts its bytes. -/
@[irreducible] def flatFrame (v : Byte) : List Host.Cell := (List.range 6912).map fun a => (a, v)

/-- A ready state whose whole frame is zero. -/
def zeroFrame (cnt : BitVec 4) : State :=
  { small true 6912 [] with flashCnt := cnt, src := flatFrame 0#8 }

/-- A state about to render. -/
def aboutToRender : State := small true 6912 [.write (.cmd 0x0100#16)]

theorem flatFrame_wf (v : Byte) : Memory.wf (flatFrame v) := by
  have h : (flatFrame v).map Prod.fst = List.range 6912 := by
    unfold flatFrame
    rw [List.map_map]
    exact List.map_id _
  rw [Memory.wf, h]
  exact List.pairwise_lt_range

theorem read_flatFrame (v : Byte) (a : Nat) (h : a < 6912) : Memory.read (flatFrame v) a = some v := by
  refine Memory.read_listed _ (flatFrame_wf v) _ _ ?_
  unfold flatFrame
  exact List.mem_map_of_mem (List.mem_range.mpr h)

theorem ready_small (host : List HostAction) : renderReady (small true 6912 host) = true := by
  rw [renderReady_iff]
  exact ⟨rfl, show 6912 ≤ (BitVec.ofNat 32 6912).toNat by decide⟩

theorem step_aboutToRender :
    step aboutToRender = .next (setErr .ok (rendered (takeAction [] aboutToRender))) :=
  execRenderFrame_of_ready 0 (s := takeAction [] aboutToRender) (by decide)

/-! ### Commands -/

/-- 43 R164: pixel 0 is ink 3, pixel 1 paper 2, under `FLASH.FLAG` 0. -/
theorem test_render_frame_pixels :
    pixelWord (advanceFlash sampleR164) 0 = 0x3333#16 ∧ pixelWord (advanceFlash sampleR164) 1 = 0x2222#16 ∧
    flashReg (advanceFlash sampleR164) = 0x01#8 := by decide

/-- 95 section 2.4: `SRC_LEN` of 6911, and no buffer, which is checked first. -/
theorem test_render_frame_faults :
    exec (.renderFrame 0) (small true 6911 []) =
      .next { small true 6911 [] with statusErr := .invalidFrameSize } ∧
    exec (.renderFrame 0) (small false 0 []) = .next { small false 0 [] with statusErr := .bufferAbsent } :=
  ⟨rfl, rfl⟩

/-- 95 section 2.5. -/
theorem test_render_border :
    exec (.renderBorder 15) (small false 0 []) = .next { small false 0 [] with statusErr := .ok } ∧
    exec (.renderBorder 16) (small false 0 []) =
      .next { small false 0 [] with statusErr := .invalidColorIndex } := ⟨rfl, rfl⟩

/-- The first command after reset, as the host asks for it: 95 program P3. -/
theorem test_first_command_after_reset :
    step (State.reset.withFetchWord 16 0x0100) = .next { State.reset with statusErr := .invalidFrameSize } ∧
    step (State.reset.withFetchWord 16 0x0210) = .next { State.reset with statusErr := .invalidColorIndex } ∧
    step (State.reset.withFetchWord 16 0x0207) = .next State.reset ∧
    step (State.reset.withFetchWord 16 0x0305) = .next { State.reset with statusErr := .illegalCommand } :=
  ⟨rfl, rfl, rfl, rfl⟩

/-- 95 section 2.7: the register views after reset, with and without a buffer. -/
theorem test_registers_after_reset :
    statusReg State.reset = 0x10#8 ∧ statusReg (small false 0 []) = 0x00#8 ∧ flashReg State.reset = 0x00#8 ∧
    regRead State.reset .cmd = .cmd 0#16 := by decide

/-- Loading twice at one offset keeps the last byte, and offsets stay sorted (20 R41). -/
theorem test_load :
    Memory.place [(2, 7#8)] 1 [1#8, 2#8, 3#8] = [(1, 1#8), (2, 2#8), (3, 3#8)] := by decide

/-! ### Witnesses -/

theorem witness_DecodeOfEncodeIsTheCommand :
    (Instr.renderFrame 0).WellFormed ∧ (Instr.renderBorder 255).WellFormed := by decide

theorem witness_EncodeOfDecodeIsTheWord :
    decode 0x01FF#16 = .ok (.renderFrame 255) ∧ decode 0x0210#16 = .ok (.renderBorder 16) := by decide

theorem witness_StepRunsTheDecodedCommand :
    (small true 0 [.write (.cmd 0x0207#16)]).host = .write (.cmd 0x0207#16) :: [] ∧
    decode 0x0207#16 = .ok (.renderBorder 7) ∧ decodeTableWord 16 0x0207 = some (.renderBorder 7) := by decide

theorem witness_ReservedWordTakesIllegalCommand :
    (small true 0 [.write (.cmd 0x03FF#16)]).host = .write (.cmd 0x03FF#16) :: [] ∧
    (0x03FF#16).toNat / 256 ≠ 1 ∧ (0x03FF#16).toNat / 256 ≠ 2 ∧
    (small true 0 [.write (.cmd 0x00FF#16)]).host = .write (.cmd 0x00FF#16) :: [] ∧
    (0x00FF#16).toNat / 256 ≠ 1 ∧ (0x00FF#16).toNat / 256 ≠ 2 := by decide

theorem witness_NoPendingActionChangesNothing : State.reset.host = [] := rfl

/-- One pending action with a meaning and one without. -/
theorem witness_EveryMeaningfulActionCompletes :
    (HostAction.read .flash).hasMeaning = true ∧ (HostAction.accessAbsent 0).hasMeaning = false ∧
    (HostAction.loadSrc 4294967295 []).hasMeaning = true ∧
    (HostAction.loadSrc 4294967295 [0#8]).hasMeaning = false := by decide

theorem witness_FlashAdvanceIncrementsThenToggles :
    ({ State.reset with flashCnt := 15#4 } : State).flashCnt.toNat = 15 ∧
    ({ State.reset with flashCnt := 14#4 } : State).flashCnt.toNat ≠ 15 := by decide

/-- For RenderAdvancesFlashModulo32, RenderFrameDrawsEveryPixel and RenderFramePresentsTheWholeBuffer, at the least
and the greatest length, with the last pixel. -/
theorem witness_renders :
    (small true 6912 []).bufPresent = true ∧ 6912 ≤ (small true 6912 []).srcLen.toNat ∧
    (small true 4294967295 []).bufPresent = true ∧ 6912 ≤ (small true 4294967295 []).srcLen.toNat ∧
    239 < 240 ∧ 134 < 135 ∧ 32399 < 32400 := by decide

theorem witness_FlashPhaseAfterRenders :
    (small true 6912 [.write (.cmd 0x0100#16), .write (.cmd 0x01FF#16), .reset]).host =
      [0x0100#16, 0x01FF#16].map (fun w => .write (.cmd w)) ++ [.reset] ∧
    (∀ w ∈ [0x0100#16, 0x01FF#16], w.toNat / 256 = 1) ∧
    (small true 6912 []).bufPresent = true ∧ 6912 ≤ (small true 6912 []).srcLen.toNat ∧
    (small true 6912 []).flashCnt = 0#4 ∧ (small true 6912 []).flashFlag = false :=
  ⟨rfl, by simp, rfl, by decide, rfl, rfl⟩

/-- For every statement about steps that are no accepted render and no reset. -/
theorem witness_other_step :
    step (small true 0 [.write (.srcLen 5#32)]) = .next (setSrcLen 5#32 (small true 0 [])) ∧
    rendersNext (small true 0 [.write (.srcLen 5#32)]) = false ∧
    resetsNext (small true 0 [.write (.srcLen 5#32)]) = false := ⟨rfl, rfl, rfl⟩

/-- For every statement about reset steps, between commands and in one. -/
theorem witness_reset_step :
    (∃ t, step (small true 0 [.reset]) = .next t) ∧ resetsNext (small true 0 [.reset]) = true ∧
    (∃ t, step (small true 0 [.resetDuring 0x0100#16]) = .next t) ∧
    resetsNext (small true 0 [.resetDuring 0x0100#16]) = true :=
  ⟨⟨_, rfl⟩, rfl, ⟨_, rfl⟩, rfl⟩

/-- For every statement about steps that are accepted renders. -/
theorem witness_render_step : (∃ t, step aboutToRender = .next t) ∧ rendersNext aboutToRender = true :=
  ⟨⟨_, step_aboutToRender⟩, by decide⟩

theorem witness_RenderFrameChangesNothingElse :
    (∃ t, exec (.renderFrame 0) (small true 6912 []) = .next t ∧ t.statusErr = .ok) ∧
    (∃ t, exec (.renderFrame 0) (small true 6911 []) = .next t ∧ t.statusErr ≠ .ok) :=
  ⟨⟨_, execRenderFrame_of_ready 0 (ready_small []), rfl⟩, ⟨_, rfl, by decide⟩⟩

theorem witness_RenderWithoutBufferTakesBufferAbsent : (small false 6912 []).bufPresent = false := rfl

theorem witness_ShortFrameTakesInvalidFrameSize :
    (small true 6911 []).bufPresent = true ∧ (small true 6911 []).srcLen.toNat < 6912 := by decide

theorem witness_PixelStepWritesOneCell :
    ({ pix := 32399, dst := [(0, 1#16)] } : Scan).pix < 32400 ∧
    Memory.wf ({ pix := 32399, dst := [(0, 1#16)] } : Scan).dst := by decide

/-- For PixelScanAgreesWithAtomicRender and StepKeepsTheMachineInvariant, with an empty `DST`. -/
theorem witness_invariant : (small true 6912 [.read .status]).Inv ∧
    ∃ t, step (small true 6912 [.read .status]) = .next t :=
  ⟨{ srcWf := List.Pairwise.nil
     srcInSpace := fun _ h => absurd h List.not_mem_nil
     dstWhole := .inl rfl
     dstAbsent := fun _ => rfl
     presents := fun _ h => absurd h List.not_mem_nil }, ⟨_, rfl⟩⟩

/-- The same with a full `DST`. -/
theorem witness_invariant_full :
    let s := { small true 6912 [.read .status] with dst := frameCells sampleR164 }
    s.Inv ∧ dstRead s 32399 = some (pixelWord sampleR164 32399) ∧ ∃ t, step s = .next t :=
  ⟨{ srcWf := List.Pairwise.nil
     srcInSpace := fun _ h => absurd h List.not_mem_nil
     dstWhole := .inr (frameCells_fst _)
     dstAbsent := fun h => absurd h (by decide)
     presents := fun _ h => absurd h List.not_mem_nil }, read_frameCells _ 32399, ⟨_, rfl⟩⟩

/-- Two ready states that differ in the buffer, the response, the length, the count and three places of the frame that
no render reads: bitmap offset 0 (row 0), bit 0 of offset 1121 (row 28, byte column 1) and attribute offset 6144 (cell
row 0). -/
theorem witness_RenderDependsOnlyOnTheReadSet :
    let s₁ : State := { small true 6912 [] with src := [(0, 0x00#8), (1121, 0x80#8), (6144, 0x00#8)] }
    let s₂ : State := { small true 6913 [] with
      src := [(0, 0xFF#8), (1121, 0x81#8), (6144, 0x93#8)]
      dst := [(0, 1#16)], statusErr := .bufferAbsent, flashCnt := 3#4 }
    s₁.bufPresent = true ∧ 6912 ≤ s₁.srcLen.toNat ∧ s₂.bufPresent = true ∧ 6912 ≤ s₂.srcLen.toNat ∧
    s₁.pal = s₂.pal ∧ (advanceFlash s₁).flashFlag = (advanceFlash s₂).flashFlag ∧
    (∀ (r : SrcRow) (c k : Nat), 28 ≤ r.val → r.val ≤ 162 → c < 32 → k < 8 → (c % 2 = 1 → k ≠ 0) →
      (srcRead s₁ (rowOffset r + c)).getLsbD k = (srcRead s₂ (rowOffset r + c)).getLsbD k) ∧
    (∀ r c : Nat, 3 ≤ r → r ≤ 20 → c < 32 →
      srcRead s₁ (6144 + r * 32 + c) = srcRead s₂ (6144 + r * 32 + c)) := by
  refine ⟨rfl, by decide, rfl, by decide, rfl, rfl, fun r c k h1 h2 hc hk hodd => ?_, fun r c h1 h2 hc => ?_⟩
  · have h0 : rowOffset r + c ≠ 0 := by simp only [rowOffset]; omega
    have h6 : rowOffset r + c ≠ 6144 := by simp only [rowOffset]; omega
    by_cases h : rowOffset r + c = 1121
    · have hk0 : k ≠ 0 := hodd (by simp only [rowOffset] at h; omega)
      rw [h]
      have bits : ∀ i : Fin 8, i.val ≠ 0 → (0x80#8).getLsbD i.val = (0x81#8).getLsbD i.val := by decide
      exact bits ⟨k, hk⟩ hk0
    · simp only [srcRead, Memory.read, h0, h6, h, small, State.ofInstance, if_false]
  · have h0 : 6144 + r * 32 + c ≠ 0 := by omega
    have h1' : 6144 + r * 32 + c ≠ 1121 := by omega
    have h6 : 6144 + r * 32 + c ≠ 6144 := by omega
    simp only [srcRead, Memory.read, h0, h1', h6, small, State.ofInstance, if_false]

/-- A frame of two colours before a render that is no 16th one, and one without flashing cells before one that is. -/
theorem witness_RepeatedRenderGivesTheSameBuffer :
    (zeroFrame 0#4).bufPresent = true ∧ 6912 ≤ (zeroFrame 0#4).srcLen.toNat ∧ framePlaced (zeroFrame 0#4) ∧
    (advanceFlash (zeroFrame 0#4)).flashCnt.toNat ≠ 15 ∧
    framePlaced (zeroFrame 14#4) ∧ (advanceFlash (zeroFrame 14#4)).flashCnt.toNat = 15 ∧
    (∀ a, 6240 ≤ a → a ≤ 6815 → (srcRead (zeroFrame 14#4) a).getLsbD 7 = false) := by
  have placed : ∀ cnt, framePlaced (zeroFrame cnt) := fun cnt a h => by
    have hr : Memory.read (zeroFrame cnt).src a = some 0#8 := read_flatFrame 0#8 a h
    rw [hr]
    rfl
  refine ⟨rfl, by decide, placed _, by decide, placed _, by decide, fun a h1 h2 => ?_⟩
  have hr : Memory.read (zeroFrame 14#4).src a = some 0#8 := read_flatFrame 0#8 a (by omega)
  rw [srcRead, hr, Option.getD_some]
  rfl

theorem witness_AllZeroFrameIsPaletteZero :
    (zeroFrame 0#4).bufPresent = true ∧ 6912 ≤ (zeroFrame 0#4).srcLen.toNat ∧
    ∀ a, a < 6912 → Memory.read (zeroFrame 0#4).src a = some 0#8 :=
  ⟨rfl, by decide, fun a h => read_flatFrame 0#8 a h⟩

theorem witness_RenderBorderChecksAndDoesNothing : 255 < 256 ∧ 15 ≤ 15 ∧ 15 < 16 := by decide

theorem witness_register_accesses :
    (small true 0 [.read .cmd]).host = .read .cmd :: [] ∧
    (small true 0 [.read .status]).host = .read .status :: [] ∧
    (small true 0 [.read .srcLen]).host = .read .srcLen :: [] ∧
    (small true 0 [.read .flash]).host = .read .flash :: [] ∧
    (small true 0 [.write (.srcLen 0xFFFFFFFF#32)]).host = .write (.srcLen 0xFFFFFFFF#32) :: [] ∧
    (small true 0 [.write (.status 0xFF#8)]).host = .write (.status 0xFF#8) :: [] ∧
    (small true 0 [.write (.flash 0x1F#8)]).host = .write (.flash 0x1F#8) :: [] ∧
    (small true 0 [.accessAbsent 0]).host = .accessAbsent 0 :: [] := by decide

/-- A load at the last offset of the space, over a byte already placed. -/
theorem witness_LoadPlacesExactlyItsBytes :
    ({ small true 0 [.loadSrc 4294967294 [1#8]] with src := [(4294967294, 0#8)] } : State).host =
      .loadSrc 4294967294 [1#8] :: [] ∧
    4294967294 + [1#8].length ≤ 4294967295 ∧ 0 < [1#8].length ∧ 4294967293 < 4294967294 ∧
    Memory.wf ({ small true 0 [.loadSrc 4294967294 [1#8]] with src := [(4294967294, 0#8)] } : State).src := by
  decide

theorem witness_ResetRestoresTheResetValues :
    (small true 0 [.reset]).host = .reset :: [] ∧
    (small false 0 [.resetDuring 0x0100#16]).host = .resetDuring 0x0100#16 :: [] := by decide

theorem witness_BootSequenceRenders :
    let frame : List Byte := List.replicate 6912 0#8
    (small true 0 [.reset, .loadSrc 0 frame, .write (.srcLen (BitVec.ofNat 32 frame.length)),
      .write (.cmd 0x0100#16)]).bufPresent = true ∧
    6912 ≤ frame.length ∧ frame.length < 4294967296 ∧ (0x0100#16).toNat / 256 = 1 ∧
    (small true 0 [.reset, .loadSrc 0 frame, .write (.srcLen (BitVec.ofNat 32 frame.length)),
      .write (.cmd 0x0100#16)]).host =
      [.reset, .loadSrc 0 frame, .write (.srcLen (BitVec.ofNat 32 frame.length)), .write (.cmd 0x0100#16)] ∧
    (small true 0 [.reset, .loadSrc 0 frame, .write (.cmd 0x0100#16)]).host =
      [.reset, .loadSrc 0 frame, .write (.cmd 0x0100#16)] := by
  have len : (List.replicate 6912 (0#8 : Byte)).length = 6912 := List.length_replicate
  exact ⟨rfl, by rw [len], by rw [len]; decide, by decide, rfl, rfl⟩

/-- For FlashCountsThePresents, its clause about runs: a run without a reset that presents. Its clauses about one step
have witness_render_step, witness_other_step and witness_reset_step. -/
theorem witness_FlashCountsThePresents :
    resetFree 1 aboutToRender = true ∧ ∃ t : State, core.run 1 aboutToRender = .next t :=
  ⟨by rw [resetFree_step 0 step_aboutToRender]; decide, _, run_step 0 step_aboutToRender⟩

/-- After a reset that follows a present, `FLASH` is 0 while the log still holds the event: what
FlashCountsThePresents counts are the events since the reset. -/
theorem witness_present_before_reset :
    let s : State := { small true 0 [.reset] with events := [.present 0 0 240 135 []], flashCnt := 1#4 }
    ∃ t, step s = .next t ∧ resetsNext s = true ∧ flashReg t = 0x00#8 ∧ presentCount t.events = 1 :=
  ⟨_, rfl, rfl, by decide, by decide⟩

/-- For the clause of PresentsAreTheAcceptedRenders about runs. -/
theorem witness_run : ∃ t : State, core.run 1 aboutToRender = .next t :=
  ⟨_, run_step 0 step_aboutToRender⟩

end Sys2Proof.Tests
end

section
/-! The FlashPhase counter by cases (spec/40_flash_phase.md R100). -/

namespace Sys2Proof.Proofs

open Sys2Proof.Machine

/-- The model's compare, made on the incremented 5-bit count, is a test of the count itself. -/
theorem incremented_eq_sixteen_iff (cnt : BitVec 4) : cnt.setWidth 5 + 1#5 = 16#5 ↔ cnt.toNat = 15 := by
  bv_omega

theorem flashAdvance_of_eq_fifteen {cnt : BitVec 4} (flag : Bool) (h : cnt.toNat = 15) :
    flashAdvance cnt flag = (0#4, !flag) :=
  if_pos ((incremented_eq_sixteen_iff cnt).mpr h)

theorem flashAdvance_of_ne_fifteen {cnt : BitVec 4} (flag : Bool) (h : cnt.toNat ≠ 15) :
    flashAdvance cnt flag = (cnt + 1#4, flag) := by
  have low_bits : (cnt.setWidth 5 + 1#5).setWidth 4 = cnt + 1#4 := by bv_omega
  rw [← low_bits]
  exact if_neg (mt (incremented_eq_sixteen_iff cnt).mp h)

/-- Below 15 the 4-bit increment does not wrap. -/
theorem toNat_succ_of_ne_fifteen {cnt : BitVec 4} (h : cnt.toNat ≠ 15) :
    (cnt + 1#4).toNat = cnt.toNat + 1 := by
  bv_omega

/-- Settles O10, by the two cases of R100's compare; that nothing else is written is the form of the update. -/
theorem flashAdvanceIncrementsThenToggles : Obligations.FlashAdvanceIncrementsThenToggles := by
  intro s
  refine ⟨fun last => ?_, fun notLast => ?_, rfl⟩
  · simp [flashAdvance_of_eq_fifteen s.flashFlag last]
  · simpa [flashAdvance_of_ne_fifteen s.flashFlag notLast] using toNat_succ_of_ne_fifteen notLast

end Sys2Proof.Proofs
end

section
/-! The address functions as arithmetic, and their ranges (spec/41_address_generation.md R110 to R119). -/

namespace Sys2Proof.Proofs

open Sys2Proof.Machine

@[simp] theorem srcRow_val (y : DstRow) : (srcRow y).val = y.val + 28 := rfl

@[simp] theorem srcCol_val (x : DstCol) : (srcCol x).val = x.val * 256 / 240 := rfl

@[simp] theorem pixRow_val (p : PixIndex) : (pixRow p).val = p.val / 240 := rfl

@[simp] theorem pixCol_val (p : PixIndex) : (pixCol p).val = p.val % 240 := rfl

theorem rowOffset_eq (r : SrcRow) :
    rowOffset r = (r.val / 64) * 2048 + (r.val % 8) * 256 + ((r.val % 64) / 8) * 32 := rfl

theorem attrRowAddr_eq (r : SrcRow) : attrRowAddr r = 6144 + (r.val / 8) * 32 := rfl

theorem byteCol_eq (c : SrcCol) : byteCol c = c.val / 8 := rfl

theorem bitPos_eq (c : SrcCol) : bitPos c = 7 - c.val % 8 := rfl

theorem dstIndex_eq (x : DstCol) (y : DstRow) : dstIndex x y = y.val * 240 + x.val := rfl

/-- The crop keeps rows 28 to 162 of the source (R110). -/
theorem srcRow_range (y : DstRow) : 28 ≤ (srcRow y).val ∧ (srcRow y).val ≤ 162 := by
  rw [srcRow_val]; omega

theorem rowOffset_le (r : SrcRow) : rowOffset r ≤ 6112 := by
  rw [rowOffset_eq]; omega

/-- All three summands are multiples of 32: a bitmap row starts on a row boundary (R112). -/
theorem rowOffset_mod_32 (r : SrcRow) : rowOffset r % 32 = 0 := by
  rw [rowOffset_eq]; omega

theorem attrRowAddr_range (r : SrcRow) : 6144 ≤ attrRowAddr r ∧ attrRowAddr r ≤ 6880 := by
  rw [attrRowAddr_eq]; omega

/-- Inside a render the cropped rows leave the first and last three attribute rows unread (R114). -/
theorem attrRowAddr_srcRow_range (y : DstRow) :
    6240 ≤ attrRowAddr (srcRow y) ∧ attrRowAddr (srcRow y) ≤ 6784 := by
  obtain ⟨low, high⟩ := srcRow_range y
  rw [attrRowAddr_eq]; omega

/-- The resampler never reaches the last source column (R115). -/
theorem srcCol_le (x : DstCol) : (srcCol x).val ≤ 254 := by
  rw [srcCol_val]; omega

theorem byteCol_le (c : SrcCol) : byteCol c ≤ 31 := by
  rw [byteCol_eq]; omega

theorem bitPos_le (c : SrcCol) : bitPos c ≤ 7 := Nat.sub_le 7 _

theorem dstIndex_le (x : DstCol) (y : DstRow) : dstIndex x y ≤ 32399 := by
  rw [dstIndex_eq]; omega

/-- `DstIndex` undoes the split of `PIX` into row and column: division with remainder by 240 (R119). -/
theorem dstIndex_pixCol_pixRow (p : PixIndex) : dstIndex (pixCol p) (pixRow p) = p.val :=
  Nat.div_add_mod' p.val 240

/-- Settles O14: each formula is its function's equation, each range the lemma on that function. -/
theorem addressFunctionsFollowTheFormulas : Obligations.AddressFunctionsFollowTheFormulas :=
  ⟨fun y => ⟨srcRow_val y, srcRow_range y⟩,
    fun r => ⟨rowOffset_eq r, rowOffset_le r, rowOffset_mod_32 r⟩,
    fun r => ⟨attrRowAddr_eq r, attrRowAddr_range r⟩,
    attrRowAddr_srcRow_range,
    fun x => ⟨srcCol_val x, srcCol_le x⟩,
    fun c => ⟨byteCol_eq c, byteCol_le c, bitPos_eq c, bitPos_le c⟩,
    fun x y => ⟨dstIndex_eq x y, dstIndex_le x y⟩,
    dstIndex_pixCol_pixRow⟩

end Sys2Proof.Proofs
end

section
/-! The stages of colour resolution as arithmetic (spec/42_colour_resolution.md R131 to R134). -/

namespace Sys2Proof.Proofs

open Sys2Proof.Machine

@[simp] theorem attrInk_toNat (attr : Byte) : (attrInk attr).toNat = attr.toNat % 8 := by
  simp [attrInk]

@[simp] theorem attrPaper_toNat (attr : Byte) : (attrPaper attr).toNat = attr.toNat / 8 % 8 := by
  simp [attrPaper, Nat.shiftRight_eq_div_pow]

/-- A mask of one bit tests that bit: the reading R131 gives of its two one-bit fields. -/
theorem getLsbD_eq_decide_and_twoPow_ne_zero {w i : Nat} (x : BitVec w) (hi : i < w) :
    x.getLsbD i = decide (x &&& BitVec.twoPow w i ≠ 0#w) := by
  have mask_ne_zero : BitVec.twoPow w i ≠ 0#w := by
    simp [BitVec.toNat_eq, BitVec.toNat_twoPow_of_lt hi]
  cases bit : x.getLsbD i <;> simp [BitVec.and_twoPow, bit, mask_ne_zero]

theorem attrBright_eq (attr : Byte) : attrBright attr = decide (attr &&& 0x40#8 ≠ 0#8) :=
  getLsbD_eq_decide_and_twoPow_ne_zero attr (i := 6) (by decide)

theorem attrFlash_eq (attr : Byte) : attrFlash attr = decide (attr &&& 0x80#8 ≠ 0#8) :=
  getLsbD_eq_decide_and_twoPow_ne_zero attr (i := 7) (by decide)

/-- Ink and paper change places only when the cell flashes and the flag is 1 (R132). -/
theorem flashMux_eq (flash flag : Bool) (ink paper : BitVec 3) :
    flashMux flash flag (ink, paper) = if flash = true ∧ flag = true then (paper, ink) else (ink, paper) := by
  simp only [flashMux, Bool.and_eq_true]

/-- Promotion extends the colour with a zero bit 3, which keeps its number, and sets that bit on a bright cell (R133). -/
theorem promote_toNat (bright : Bool) (c : BitVec 3) :
    (promote bright c).toNat = if bright = true then c.toNat ||| 8 else c.toNat := by
  have extended : (c.setWidth 4).toNat = c.toNat := BitVec.toNat_setWidth_of_le (by decide)
  cases bright with
  | false => exact extended
  | true => exact congrArg (· ||| 8) extended

/-- A set bitmap bit selects ink, a clear one paper; the bit as a digit of the byte's value (R134). -/
theorem pixelSelect_eq (bmp : Byte) (bit : Nat) (ink paper : BitVec 4) :
    pixelSelect bmp bit ink paper = if bmp.toNat / 2 ^ bit % 2 = 1 then ink else paper := by
  have bit_as_digit : bmp.getLsbD bit = decide (bmp.toNat / 2 ^ bit % 2 = 1) :=
    Nat.testBit_eq_decide_div_mod_eq
  simp only [pixelSelect, bit_as_digit, decide_eq_true_eq]

/-- Settles O18: each stage is its function's equation. -/
theorem colourStagesFollowTheRules : Obligations.ColourStagesFollowTheRules :=
  ⟨fun attr => ⟨attrInk_toNat attr, attrPaper_toNat attr, attrBright_eq attr, attrFlash_eq attr⟩,
    flashMux_eq, promote_toNat, pixelSelect_eq⟩

end Sys2Proof.Proofs
end

section
/-! Which steps put out a Present event, and how many a run puts out (spec/43_render_frame.md R159). -/

namespace Sys2Proof.Proofs

open Sys2Proof.Machine

variable {s t : State}

@[simp] theorem presentCount_present_cons (ox oy w h : Nat) (data : List Pixel) (events : List Event) :
    presentCount (.present ox oy w h data :: events) = presentCount events + 1 :=
  List.countP_cons_of_pos rfl

@[simp] theorem presentCount_readData_cons (d : RegData) (events : List Event) :
    presentCount (.readData d :: events) = presentCount events :=
  List.countP_cons_of_neg Bool.false_ne_true

theorem rendersNext_of_idle (h : s.host = []) : rendersNext s = false := by
  simp only [rendersNext, h]

/-- R159 for one step: either it is an accepted render, which responds 0 and presents the buffer it leaves, or it
presents nothing. -/
theorem step_renders_or_presents_nothing (h : step s = .next t) :
    (rendersNext s = true ∧ t.statusErr = .ok ∧ t.events = presentOf t.dst :: s.events) ∨
      (rendersNext s = false ∧ presentCount t.events = presentCount s.events) := by
  cases step_cases h with
  | render w b rest hh hd hr => exact .inl ⟨rendersNext_of_render hh hd hr, rfl, rfl⟩
  | respond w r rest hh hn => exact .inr ⟨rendersNext_of_respond hh hn, rfl⟩
  | idle hh => exact .inr ⟨rendersNext_of_idle hh, rfl⟩
  | reset rest hh => exact .inr ⟨rendersNext_of_other hh (by simp), rfl⟩
  | resetDuring w rest hh => exact .inr ⟨rendersNext_of_other hh (by simp), rfl⟩
  | ignored d rest hh hd =>
    refine .inr ⟨rendersNext_of_other hh fun w hw => ?_, rfl⟩
    rcases hd with ⟨v, rfl⟩ | ⟨v, rfl⟩ <;> cases hw
  | srcLen n rest hh => exact .inr ⟨rendersNext_of_other hh (by simp), rfl⟩
  | read r rest hh => exact .inr ⟨rendersNext_of_other hh (by simp), presentCount_readData_cons _ _⟩
  | load o bs rest hh hin => exact .inr ⟨rendersNext_of_other hh (by simp), rfl⟩

theorem step_presentCount (h : step s = .next t) :
    presentCount t.events = presentCount s.events + if rendersNext s then 1 else 0 := by
  rcases step_renders_or_presents_nothing h with ⟨hr, -, he⟩ | ⟨hr, hc⟩
  · simp [hr, he, presentOf]
  · simp [hr, hc]

theorem run_presentCount (n : Nat) (h : core.run n s = .next t) :
    presentCount t.events = presentCount s.events + acceptedRenders n s := by
  induction n generalizing s with
  | zero =>
    cases h
    rfl
  | succ n ih =>
    obtain ⟨u, hstep, hrun⟩ := run_inv n h
    rw [ih hrun, step_presentCount hstep, acceptedRenders_step n hstep, Nat.add_assoc]

/-- Settles O42: the step clauses are the two cases of a step, and the run clause adds them up. -/
theorem presentsAreTheAcceptedRenders : Obligations.PresentsAreTheAcceptedRenders := by
  refine ⟨fun s t h => ?_, fun n s t h => run_presentCount n h⟩
  rcases step_renders_or_presents_nothing h with ⟨hr, hok, he⟩ | ⟨hr, hc⟩
  · exact ⟨fun _ => ⟨hok, he⟩, by simp [hr]⟩
  · exact ⟨by simp [hr], fun _ => hc⟩

end Sys2Proof.Proofs
end

section
/-! A queue of `RENDER_FRAME` words run to its end, with the FlashPhase as the number of renders since (0, 0)
(spec/40_flash_phase.md R102, spec/43_render_frame.md R152, R159). -/

namespace Sys2Proof.Proofs

open Sys2Proof.Machine

/-- The FlashPhase is the one that `k` calls of `FlashAdvance` reach from (0, 0), in the closed form of R102. -/
def IsFlashPhaseAfter (k : Nat) (cnt : BitVec 4) (flag : Bool) : Prop :=
  cnt.toNat = k % 16 ∧ flag = decide (k / 16 % 2 = 1)

theorem isFlashPhaseAfter_zero : IsFlashPhaseAfter 0 0#4 false := ⟨rfl, rfl⟩

/-- One call of `FlashAdvance` counts one render more: the toggle falls where `k + 1` is a multiple of 16. -/
theorem IsFlashPhaseAfter.advance {k : Nat} {cnt : BitVec 4} {flag : Bool}
    (h : IsFlashPhaseAfter k cnt flag) :
    IsFlashPhaseAfter (k + 1) (flashAdvance cnt flag).1 (flashAdvance cnt flag).2 := by
  obtain ⟨hcnt, rfl⟩ := h
  by_cases last : cnt.toNat = 15
  · rw [flashAdvance_of_eq_fifteen _ last]
    refine ⟨?_, ?_⟩
    · simp only [BitVec.toNat_ofNat]
      omega
    · rw [← decide_not, decide_eq_decide]
      omega
  · rw [flashAdvance_of_ne_fifteen _ last]
    refine ⟨?_, ?_⟩
    · simp only [toNat_succ_of_ne_fifteen last]
      omega
    · rw [decide_eq_decide]
      omega

/-- A command word with high byte 1 is `RENDER_FRAME` (R73). -/
theorem decode_of_highByte_eq_one {w : CmdWord} (h : w.toNat / 256 = 1) :
    decode w = .ok (.renderFrame (borderField w).toNat) := by
  have op_eq : opField w = 0x01#8 := by
    apply BitVec.eq_of_toNat_eq
    simp [opField, Nat.shiftRight_eq_div_pow, h]
  exact if_pos op_eq

/-- The step that takes a `RENDER_FRAME` word on a ready instance renders. -/
theorem step_of_render {s : State} {w : CmdWord} {b : Nat} {rest : List HostAction}
    (h : s.host = .write (.cmd w) :: rest) (hd : decode w = .ok (.renderFrame b))
    (hr : renderReady s = true) : step s = .next (setErr .ok (rendered (takeAction rest s))) := by
  have exec_eq := execRenderFrame_of_ready (s := takeAction rest s) b hr
  simpa only [step, hostStep, h, perform, writeReg, issueCommand, hd, exec] using exec_eq

/-- A ready instance works off a queue of `RENDER_FRAME` words: each advances the FlashPhase once and presents once.
The response is 0 as soon as one word has run, or if it was 0 before. -/
theorem run_renders (words : List CmdWord) (rest : List HostAction) (s : State) (k : Nat)
    (hhost : s.host = words.map (fun w => .write (.cmd w)) ++ rest)
    (hwords : ∀ w ∈ words, w.toNat / 256 = 1) (hr : renderReady s = true)
    (hphase : IsFlashPhaseAfter k s.flashCnt s.flashFlag) :
    ∃ t : State, core.run words.length s = .next t ∧ t.host = rest ∧
      IsFlashPhaseAfter (k + words.length) t.flashCnt t.flashFlag ∧
      presentCount t.events = presentCount s.events + words.length ∧
      (s.statusErr = .ok ∨ words ≠ [] → t.statusErr = .ok) := by
  induction words generalizing s k with
  | nil => exact ⟨s, rfl, hhost, hphase, rfl, by simp⟩
  | cons w words ih =>
    obtain ⟨hw, hwords⟩ := List.forall_mem_cons.mp hwords
    have hd := decode_of_highByte_eq_one hw
    rw [List.map_cons, List.cons_append] at hhost
    have hstep := step_of_render hhost hd hr
    obtain ⟨t, hrun, hrest, ht, hcount, hok⟩ :=
      ih (setErr .ok (rendered (takeAction _ s))) (k + 1) rfl hwords hr hphase.advance
    rw [step_presentCount hstep, rendersNext_of_render hhost hd hr] at hcount
    refine ⟨t, (run_step _ hstep).trans hrun, hrest, ?_, ?_, fun _ => hok (.inl rfl)⟩
    · rwa [List.length_cons, Nat.add_comm words.length, ← Nat.add_assoc]
    · rw [hcount, List.length_cons, if_pos rfl, Nat.add_assoc, Nat.add_comm 1]

/-- Settles O12: the queue run from phase 0. -/
theorem flashPhaseAfterRenders : Obligations.FlashPhaseAfterRenders := by
  intro s words rest hhost hwords hbuf hlen hcnt hflag
  have phase_zero : IsFlashPhaseAfter 0 s.flashCnt s.flashFlag := by
    rw [hcnt, hflag]
    exact isFlashPhaseAfter_zero
  obtain ⟨t, hrun, hrest, ⟨hcnt', hflag'⟩, hcount, hok⟩ :=
    run_renders words rest s 0 hhost hwords ((renderReady_iff s).mpr ⟨hbuf, hlen⟩) phase_zero
  rw [Nat.zero_add] at hcnt' hflag'
  exact ⟨t, hrun, hrest, hcnt', hflag', hcount, fun hne => hok (.inr hne)⟩

end Sys2Proof.Proofs
end

section
/-! The word of one pixel by the spec's addresses, and the pixel step that writes it
(spec/41_address_generation.md R118, spec/43_render_frame.md R154). -/

namespace Sys2Proof.Proofs

open Sys2Proof.Machine

theorem bitmapAddr_eq (x : DstCol) (y : DstRow) :
    bitmapAddr x y = (y.val + 28) / 64 * 2048 + (y.val + 28) % 8 * 256 + (y.val + 28) % 64 / 8 * 32 +
      x.val * 256 / 240 / 8 := by
  simp only [bitmapAddr, rowOffset_eq, byteCol_eq, srcRow_val, srcCol_val]

theorem attrAddr_eq (x : DstCol) (y : DstRow) :
    attrAddr x y = 6144 + (y.val + 28) / 8 * 32 + x.val * 256 / 240 / 8 := by
  simp only [attrAddr, attrRowAddr_eq, byteCol_eq, srcRow_val, srcCol_val]

/-- The palette word of a pixel, with the two fetches and the bit position of R154 written out. -/
theorem pixelWord_eq (s : State) (p : PixIndex) :
    pixelWord s p =
      let srcY := p.val / 240 + 28
      let srcX := p.val % 240 * 256 / 240
      let bmp := srcRead s (srcY / 64 * 2048 + srcY % 8 * 256 + srcY % 64 / 8 * 32 + srcX / 8)
      let attr := srcRead s (6144 + srcY / 8 * 32 + srcX / 8)
      palRead s (colourIndex attr bmp (7 - srcX % 8) s.flashFlag) := by
  simp only [pixelWord, pixelIndex, fetchBitmap, fetchAttr, bitmapAddr_eq, attrAddr_eq, bitPos_eq,
    srcCol_val, pixRow_val, pixCol_val]

/-- Settles O27: a pixel step is one memory write at `PIX`, so the laws of a write give every clause. -/
theorem pixelStepWritesOneCell : Obligations.PixelStepWritesOneCell := by
  intro s c hpix hwf
  rw [pixelStep_of_lt s c hpix]
  refine ⟨rfl, Memory.write_wf _ hwf _ _, ?_, fun q hq => Memory.read_write_other _ hwf _ _ _ hq⟩
  exact (Memory.read_write_same _ _ _).trans (congrArg some (pixelWord_eq s ⟨c.pix, hpix⟩))

end Sys2Proof.Proofs
end

section
/-! The word of `RENDER_BORDER` and its two outcomes (spec/44_render_border.md R170 to R172). -/

namespace Sys2Proof.Proofs

open Sys2Proof.Machine

/-- A border that fits its field has the same number in the low byte as in the whole command word. -/
theorem setWidth'_ofNat_eight_of_lt {b : Nat} (h : b < 256) :
    (BitVec.ofNat 8 b).setWidth' (by decide) = BitVec.ofNat 16 b := by
  simp only [BitVec.toNat_eq, BitVec.toNat_setWidth', BitVec.toNat_ofNat]
  omega

/-- The append of format `C` is the or of the operation code, shifted to the high byte, and the border (R170). -/
theorem encode_renderBorder {b : Nat} (h : b < 256) :
    encode (.renderBorder b) = 0x0200#16 ||| BitVec.ofNat 16 b := by
  calc encode (.renderBorder b)
      = BitVec.shiftLeftZeroExtend 0x02#8 8 ||| (BitVec.ofNat 8 b).setWidth' (by decide) :=
        BitVec.append_def _ _
    _ = 0x0200#16 ||| BitVec.ofNat 16 b := congrArg _ (setWidth'_ofNat_eight_of_lt h)

theorem exec_renderBorder_of_le {border : Nat} (s : State) (h : border ≤ 15) :
    exec (.renderBorder border) s = .next (setErr .ok s) := by
  rcases execRenderBorder_cases border s with ⟨-, outcome⟩ | ⟨above, -⟩
  · exact outcome
  · exact absurd h (Nat.not_le.mpr above)

theorem exec_renderBorder_of_gt {border : Nat} (s : State) (h : 15 < border) :
    exec (.renderBorder border) s = .next (setErr .invalidColorIndex s) := by
  rcases execRenderBorder_cases border s with ⟨legal, -⟩ | ⟨-, outcome⟩
  · exact absurd legal (Nat.not_le.mpr h)
  · exact outcome

/-- Settles O32, from the word and the outcome on either side of 15; the codes are those of `Response.code`. -/
theorem renderBorderChecksAndDoesNothing : Obligations.RenderBorderChecksAndDoesNothing :=
  ⟨fun _ fits => encode_renderBorder fits, fun s _ legal => exec_renderBorder_of_le s legal,
    fun s _ above => exec_renderBorder_of_gt s above, rfl, rfl⟩

end Sys2Proof.Proofs
end

section
/-! The command word as its two fields, and the decoder and encoder on them (spec/30_encoding.md R71 to R74). -/

namespace Sys2Proof.Proofs

open Sys2Proof.Machine

@[simp] theorem opField_toNat (w : CmdWord) : (opField w).toNat = w.toNat / 256 := by
  have fits : w.toNat / 256 < 256 := Nat.div_lt_of_lt_mul w.isLt
  simpa [opField, Nat.shiftRight_eq_div_pow] using fits

@[simp] theorem borderField_toNat (w : CmdWord) : (borderField w).toNat = w.toNat % 256 := by
  simp [borderField]

/-- Format `C` has no other bits than its two fields (R71). -/
theorem opField_append_borderField (w : CmdWord) : opField w ++ borderField w = w :=
  (BitVec.extractLsb'_append_extractLsb'_eq_extractLsb' rfl).trans BitVec.extractLsb'_eq_self

/-- A command is well formed exactly when its operand fits the border field. -/
theorem wellFormed_iff (i : Instr) : i.WellFormed ↔ borderOf i < 256 := by
  cases i <;> exact decide_eq_true_iff

/-- A word means a command exactly when its fields are the operation code and the operand of that command. -/
theorem decode_eq_ok_iff (w : CmdWord) (i : Instr) :
    decode w = .ok i ↔ opField w = opCode i ∧ (borderField w).toNat = borderOf i := by
  unfold decode
  by_cases frame : opField w = 0x01#8
  · cases i <;> simp [frame, opCode, borderOf]
  · by_cases border : opField w = 0x02#8
    · cases i <;> simp [border, opCode, borderOf]
    · cases i <;> simp [frame, border, opCode]

/-- The reserved words are those of any other operation code (R74). -/
theorem decode_eq_error_iff (w : CmdWord) :
    (∃ e, decode w = .error e) ↔ opField w ≠ 0x01#8 ∧ opField w ≠ 0x02#8 := by
  unfold decode
  by_cases frame : opField w = 0x01#8
  · simp [frame]
  · by_cases border : opField w = 0x02#8 <;> simp [frame, border]

theorem decode_encode {i : Instr} (h : i.WellFormed) : decode (encode i) = .ok i :=
  (decode_eq_ok_iff _ i).mpr (Laws.fields_of_append (opCode i) (borderOf i) ((wellFormed_iff i).mp h))

/-- A 16-bit row of the opcode table is the command word itself. -/
theorem tableWord_sixteen (w : CmdWord) : tableWord 16 w.toNat = w := by
  rw [tableWord, Nat.mod_eq_of_lt w.isLt, BitVec.ofNat_toNat, BitVec.setWidth_eq]

theorem decodeTableWord_eq_some_iff (nbits w : Nat) (i : Instr) :
    decodeTableWord nbits w = some i ↔ nbits ≤ 16 ∧ decode (tableWord nbits w) = .ok i := by
  by_cases fits : nbits ≤ 16
  · cases decoded : decode (tableWord nbits w) <;> simp [decodeTableWord, fits, decoded]
  · simp [decodeTableWord, fits]

/-- Settles O1: the fields of the encoding are those of the command. -/
theorem decodeOfEncodeIsTheCommand : Obligations.DecodeOfEncodeIsTheCommand := by
  intro i h
  refine ⟨decode_encode h, (decodeTableWord_eq_some_iff 16 _ i).mpr ⟨Nat.le_refl 16, ?_⟩⟩
  rw [tableWord_sixteen]
  exact decode_encode h

/-- Settles O2: the fields of the word are those of its command, and a word is its fields. -/
theorem encodeOfDecodeIsTheWord : Obligations.EncodeOfDecodeIsTheWord := by
  intro w i h
  obtain ⟨op, border⟩ := (decode_eq_ok_iff w i).mp h
  refine ⟨(wellFormed_iff i).mpr (border ▸ (borderField w).isLt), ?_⟩
  calc encode i
      = opField w ++ BitVec.ofNat 8 (borderField w).toNat := by rw [encode, op, border]
    _ = opField w ++ borderField w := by rw [BitVec.ofNat_toNat, BitVec.setWidth_eq]
    _ = w := opField_append_borderField w

/-- The mask of the opcode table keeps the operation code and clears the border. -/
theorem and_opMask (w : CmdWord) : w &&& 0xFF00#16 = opField w ++ 0#8 := by
  calc w &&& 0xFF00#16
      = (opField w ++ borderField w) &&& (BitVec.allOnes 8 ++ 0#8) := by
        rw [opField_append_borderField]; rfl
    _ = opField w ++ 0#8 := by rw [BitVec.and_append, BitVec.and_allOnes, BitVec.and_zero]

/-- A match value under the mask is a test of the operation code (R73). -/
theorem and_opMask_eq_iff (w : CmdWord) (op : BitVec 8) : w &&& 0xFF00#16 = op ++ 0#8 ↔ opField w = op := by
  rw [and_opMask]
  exact BitVec.append_left_inj 0#8

/-- Settles O3: match and mask compare the operation code, and the low byte is the border field. -/
theorem decodeFollowsMatchAndMask : Obligations.DecodeFollowsMatchAndMask := by
  intro w
  have isFrame : w &&& 0xFF00#16 = 0x0100#16 ↔ opField w = 0x01#8 := and_opMask_eq_iff w 0x01#8
  have isBorder : w &&& 0xFF00#16 = 0x0200#16 ↔ opField w = 0x02#8 := and_opMask_eq_iff w 0x02#8
  refine ⟨fun b => ?_, fun b => ?_, ?_⟩
  · rw [decode_eq_ok_iff, isFrame, borderField_toNat, eq_comm (a := b)]; rfl
  · rw [decode_eq_ok_iff, isBorder, borderField_toNat, eq_comm (a := b)]; rfl
  · exact (decode_eq_error_iff w).trans (and_congr isFrame.not.symm isBorder.not.symm)

/-- Settles O4, by running the decoder on the six words. -/
theorem sampleWordsDecode : Obligations.SampleWordsDecode := by
  unfold Obligations.SampleWordsDecode
  decide

end Sys2Proof.Proofs
end

section
/-! What a step does with the host's next action (spec/10_state.md R20 to R25, spec/60_exceptions.md R181, R188,
spec/70_reset_and_hazards.md R221). -/

namespace Sys2Proof.Proofs

open Sys2Proof.Machine

variable {s : State} {rest : List HostAction}

/-- A step performs the host's next action on the state without it. -/
theorem step_cons {a : HostAction} (h : s.host = a :: rest) : step s = perform a (takeAction rest s) := by
  simp only [step, hostStep, h]

theorem step_nil (h : s.host = []) : step s = .next s := by
  simp only [step, hostStep, h]

theorem issueCommand_of_ok {w : CmdWord} {i : Instr} (h : decode w = .ok i) (s : State) :
    issueCommand w s = exec i s := by
  simp only [issueCommand, h]

theorem issueCommand_of_error {w : CmdWord} {e : DecodeReject} (h : decode w = .error e) (s : State) :
    issueCommand w s = .next (setErr .illegalCommand s) := by
  simp only [issueCommand, h, raise]

/-- A write of `CMD` with a word that decodes is that command (R21, R55). -/
theorem step_of_decode {w : CmdWord} {i : Instr} (h : s.host = .write (.cmd w) :: rest)
    (hd : decode w = .ok i) : step s = exec i (takeAction rest s) :=
  (step_cons h).trans (issueCommand_of_ok hd _)

/-- Settles O5: a word that decodes runs as its command, and `withFetchWord` puts it at the head of the queue. -/
theorem stepRunsTheDecodedCommand : Obligations.StepRunsTheDecodedCommand := by
  refine ⟨fun s w i rest h hd => step_of_decode h hd, fun s nbits w i h => ?_⟩
  obtain ⟨-, decoded⟩ := (decodeTableWord_eq_some_iff nbits w i).mp h
  exact step_of_decode (queueCommand_host s (tableWord nbits w)) decoded

/-- Settles O6: such a word does not decode, and a fault changes `STATUS.ERR` alone. -/
theorem reservedWordTakesIllegalCommand : Obligations.ReservedWordTakesIllegalCommand := by
  intro s w rest h notFrame notBorder
  have reserved : opField w ≠ 0x01#8 ∧ opField w ≠ 0x02#8 := by
    simp [BitVec.toNat_eq, notFrame, notBorder]
  obtain ⟨e, hd⟩ := (decode_eq_error_iff w).mpr reserved
  exact ⟨_, (step_cons h).trans (issueCommand_of_error hd _), rfl, rfl⟩

/-- Settles O7: an empty queue is the idle arm of a step. -/
theorem noPendingActionChangesNothing : Obligations.NoPendingActionChangesNothing :=
  fun _ h => step_nil h

/-- Every command word completes: with an accepted render, or with a change of `STATUS.ERR` alone. -/
theorem issueCommand_completes (w : CmdWord) (s : State) : ∃ t, issueCommand w s = .next t := by
  rcases issueCommand_cases w s with ⟨b, -, -, rendering⟩ | ⟨-, r, response⟩
  · exact ⟨_, rendering⟩
  · exact ⟨_, response⟩

/-- The host actions that answer a next state are those with a meaning: only an absent register and a load past the
space are refused. -/
theorem perform_completes_iff (a : HostAction) (s : State) :
    (∃ t, perform a s = .next t) ↔ a.hasMeaning = true := by
  cases a with
  | reset => exact iff_of_true ⟨_, rfl⟩ rfl
  | resetDuring w => exact iff_of_true ⟨_, rfl⟩ rfl
  | read r => exact iff_of_true ⟨_, rfl⟩ rfl
  | accessAbsent k => simp [perform, HostAction.hasMeaning]
  | loadSrc offset bytes =>
    by_cases inSpace : offset + bytes.length ≤ Config.srcSpace <;>
      simp [perform, loadBytes, HostAction.hasMeaning, inSpace]
  | write d =>
    refine iff_of_true ?_ rfl
    cases d with
    | cmd w => exact issueCommand_completes w s
    | _ => exact ⟨_, rfl⟩

/-- Settles O8, by whether an action is pending; that no step faults holds since there is no fault to name. -/
theorem everyMeaningfulActionCompletes : Obligations.EveryMeaningfulActionCompletes := by
  intro s
  refine ⟨?_, fun f => nomatch f⟩
  cases hhost : s.host with
  | nil => exact iff_of_true ⟨s, step_nil hhost⟩ (by simp)
  | cons a rest =>
    rw [step_cons hhost, perform_completes_iff]
    simp

theorem setErr_setErr (q r : Response) (s : State) : setErr q (setErr r s) = setErr q s := rfl

/-- Settles O9: no check of a command looks at `STATUS.ERR`, and every end of one overwrites it. -/
theorem earlierResponseHasNoInfluence : Obligations.EarlierResponseHasNoInfluence := by
  intro i s r
  change exec i (setErr r s) = exec i s
  cases i with
  | renderFrame b =>
    simp only [exec, execRenderFrame, setErr_bufPresent, frameDeclared_setErr, rendered_setErr, raise,
      respondOk, setErr_setErr]
  | renderBorder b => simp only [exec, execRenderBorder, raise, respondOk, setErr_setErr]

/-- Settles O34: the three writes are the arms of a register write that store the length or nothing. -/
theorem registerWritesStoreOnlyTheLength : Obligations.RegisterWritesStoreOnlyTheLength :=
  fun _ _ => ⟨fun _ h => step_cons h, fun _ h => step_cons h, fun _ h => step_cons h⟩

/-- Settles O35: the access is an arm of its own, which refuses. -/
theorem absentRegisterIsRefused : Obligations.AbsentRegisterIsRefused :=
  fun _ _ _ h => step_cons h

/-- Settles O26: the render has no use for its operand. -/
theorem renderFrameIgnoresBorder : Obligations.RenderFrameIgnoresBorder :=
  fun _ _ _ => rfl

end Sys2Proof.Proofs
end

section
/-! The invariant of the machine at reset and through every operation of a step (spec/10_state.md section 3,
spec/20_memory.md R46, spec/43_render_frame.md R158). -/

namespace Sys2Proof.Proofs

open Sys2Proof.Machine

variable {s t : State}

/-- Settles O45: at reset nothing is placed, drawn or presented. -/
theorem resetMeetsTheMachineInvariant : Obligations.ResetMeetsTheMachineInvariant where
  srcWf := .nil
  srcInSpace := by simp [State.reset, State.ofInstance]
  dstWhole := .inl rfl
  dstAbsent _ := rfl
  presents := by simp [State.reset, State.ofInstance]

/-- The invariant speaks of four fields only. -/
theorem inv_of_same_fields (hs : s.Inv) (hsrc : t.src = s.src) (hdst : t.dst = s.dst)
    (hbuf : t.bufPresent = s.bufPresent) (hevents : t.events = s.events) : t.Inv where
  srcWf := hsrc ▸ hs.srcWf
  srcInSpace := hsrc ▸ hs.srcInSpace
  dstWhole := hdst ▸ hs.dstWhole
  dstAbsent h := hdst ▸ hs.dstAbsent (hbuf ▸ h)
  presents := hevents ▸ hs.presents

theorem inv_takeReset (hs : s.Inv) : (takeReset s).Inv where
  srcWf := hs.srcWf
  srcInSpace := hs.srcInSpace
  dstWhole := .inl rfl
  dstAbsent _ := rfl
  presents := hs.presents

/-- The words of a render fill the rectangle the spec allows (R158). -/
theorem presentOf_frameCells_presentWhole (s : State) : (presentOf (frameCells s)).presentWhole :=
  ⟨rfl, rfl, rfl, rfl, List.length_map _ |>.trans (frameCells_length s)⟩

/-- A render fills every cell, so it keeps the invariant where there is a buffer to fill. -/
theorem inv_rendered (hs : s.Inv) (hbuf : s.bufPresent = true) : (rendered s).Inv where
  srcWf := hs.srcWf
  srcInSpace := hs.srcInSpace
  dstWhole := .inr (frameCells_fst _)
  dstAbsent absent := absurd hbuf (by simpa using absent)
  presents := List.forall_mem_cons.mpr ⟨presentOf_frameCells_presentWhole _, hs.presents⟩

theorem inv_emit_readData (hs : s.Inv) (d : RegData) : (emit (.readData d) s).Inv where
  srcWf := hs.srcWf
  srcInSpace := hs.srcInSpace
  dstWhole := hs.dstWhole
  dstAbsent := hs.dstAbsent
  presents := List.forall_mem_cons.mpr ⟨trivial, hs.presents⟩

/-- A load that is not refused keeps `SRC` canonical and inside its space. -/
theorem inv_fillSrc (hs : s.Inv) {o : Nat} {bs : List Byte} (hin : o + bs.length ≤ Config.srcSpace) :
    (fillSrc o bs s).Inv where
  srcWf := Memory.place_wf _ hs.srcWf o bs
  srcInSpace c hc := by
    rcases Memory.mem_place_fst s.src o bs c hc with ⟨-, below⟩ | before
    · exact Nat.lt_of_lt_of_le below hin
    · exact hs.srcInSpace c before
  dstWhole := hs.dstWhole
  dstAbsent := hs.dstAbsent
  presents := hs.presents

/-- Settles O44, by the cases of a step: each is one of the operations above on the state without the action. -/
theorem stepKeepsTheMachineInvariant : Obligations.StepKeepsTheMachineInvariant := by
  intro s t hs hstep
  have taken (rest : List HostAction) : (takeAction rest s).Inv := inv_of_same_fields hs rfl rfl rfl rfl
  cases step_cases hstep with
  | idle _ => exact hs
  | reset rest _ => exact inv_takeReset (taken rest)
  | resetDuring _ rest _ => exact inv_takeReset (taken rest)
  | render _ _ rest _ _ ready =>
    have hbuf : s.bufPresent = true := ((renderReady_iff s).mp ready).1
    exact inv_of_same_fields (inv_rendered (taken rest) hbuf) rfl rfl rfl rfl
  | respond _ _ rest _ _ => exact inv_of_same_fields hs rfl rfl rfl rfl
  | ignored _ rest _ _ => exact taken rest
  | srcLen _ rest _ => exact inv_of_same_fields hs rfl rfl rfl rfl
  | read _ rest _ => exact inv_emit_readData (taken rest) _
  | load _ _ rest _ hin => exact inv_fillSrc (taken rest) hin

end Sys2Proof.Proofs
end

section
/-! The registers `STATUS` and `FLASH` as numbers (spec/10_state.md R22, R24), and `FLASH` as a 5-bit counter of renders
(spec/40_flash_phase.md R101, R103). -/

namespace Sys2Proof.Proofs

open Sys2Proof.Machine

/-- The layout the two registers share: four low bits, one bit above them, and zeros. -/
theorem toNat_zeros_flag_low (flag : Bool) (low : BitVec 4) :
    (0#3 ++ BitVec.ofBool flag ++ low).toNat = low.toNat + if flag = true then 16 else 0 := by
  revert flag low
  decide

theorem statusReg_toNat (s : State) :
    (statusReg s).toNat = s.statusErr.code.toNat + if s.bufPresent = true then 16 else 0 :=
  toNat_zeros_flag_low _ _

theorem flashReg_toNat (s : State) :
    (flashReg s).toNat = s.flashCnt.toNat + if s.flashFlag = true then 16 else 0 :=
  toNat_zeros_flag_low _ _

theorem flashReg_lt (s : State) : (flashReg s).toNat < 32 := by
  have cnt_lt : s.flashCnt.toNat < 16 := s.flashCnt.isLt
  rw [flashReg_toNat]
  split <;> omega

/-- Where the count wraps the flag toggles, so the two together count to 32 (R103). -/
theorem flashReg_advanceFlash (s : State) :
    (flashReg (advanceFlash s)).toNat = ((flashReg s).toNat + 1) % 32 := by
  have cnt_lt : s.flashCnt.toNat < 16 := s.flashCnt.isLt
  obtain ⟨wraps, counts, -⟩ := flashAdvanceIncrementsThenToggles s
  by_cases last : s.flashCnt.toNat = 15
  · obtain ⟨cnt, flag⟩ := wraps last
    rw [flashReg_toNat, flashReg_toNat, cnt, flag, last]
    cases s.flashFlag <;> rfl
  · obtain ⟨cnt, flag⟩ := counts last
    rw [flashReg_toNat, flashReg_toNat, cnt, flag]
    split <;> omega

theorem flashReg_rendered (s : State) : (flashReg (rendered s)).toNat = ((flashReg s).toNat + 1) % 32 :=
  flashReg_advanceFlash s

/-- With a buffer and a long enough frame `RENDER_FRAME` renders and responds 0 (R151, R152). -/
theorem exec_renderFrame_of_ready (border : Nat) {s : State} (hbuf : s.bufPresent = true)
    (hlen : 6912 ≤ s.srcLen.toNat) :
    exec (.renderFrame border) s = .next (setErr .ok (rendered s)) :=
  execRenderFrame_of_ready border ((renderReady_iff s).mpr ⟨hbuf, hlen⟩)

/-- Settles O11: the render calls `FlashAdvance` once. -/
theorem renderAdvancesFlashModulo32 : Obligations.RenderAdvancesFlashModulo32 :=
  fun s border hbuf hlen => ⟨_, exec_renderFrame_of_ready border hbuf hlen, flashReg_rendered s⟩

end Sys2Proof.Proofs
end

section
/-! Which steps write which part of the state: the FlashPhase and `DST` have two writers, `SRC_LEN` and `SRC` one of
their own, the palette and the strap none (spec/10_state.md sections 2, 3, 5, 6 and 8). -/

namespace Sys2Proof.Proofs

open Sys2Proof.Machine

variable {s t : State}

theorem resetsNext_of_idle (h : s.host = []) : resetsNext s = false := by
  simp only [resetsNext, h]

/-- The part of the state that an accepted render and a reset alone write. -/
def SameDrawing (s t : State) : Prop :=
  t.flashCnt = s.flashCnt ∧ t.flashFlag = s.flashFlag ∧ t.dst = s.dst

/-- A step is an accepted render, or a reset, or neither and then leaves the FlashPhase and the buffer
(R105, 10 R15). -/
theorem step_renders_or_resets_or_keeps (h : step s = .next t) :
    (rendersNext s = true ∧ resetsNext s = false ∧ ∃ rest, t = setErr .ok (rendered (takeAction rest s))) ∨
      (rendersNext s = false ∧ resetsNext s = true ∧ ∃ rest, t = takeReset (takeAction rest s)) ∨
      (rendersNext s = false ∧ resetsNext s = false ∧ SameDrawing s t) := by
  cases step_cases h with
  | render w b rest hh hd hr =>
    exact .inl ⟨rendersNext_of_render hh hd hr, resetsNext_cons hh, rest, rfl⟩
  | reset rest hh => exact .inr (.inl ⟨rendersNext_of_other hh (by simp), resetsNext_cons hh, rest, rfl⟩)
  | resetDuring w rest hh =>
    exact .inr (.inl ⟨rendersNext_of_other hh (by simp), resetsNext_cons hh, rest, rfl⟩)
  | idle hh => exact .inr (.inr ⟨rendersNext_of_idle hh, resetsNext_of_idle hh, rfl, rfl, rfl⟩)
  | respond w r rest hh hn =>
    exact .inr (.inr ⟨rendersNext_of_respond hh hn, resetsNext_cons hh, rfl, rfl, rfl⟩)
  | ignored d rest hh hd =>
    refine .inr (.inr ⟨rendersNext_of_other hh fun w hw => ?_, resetsNext_cons hh, rfl, rfl, rfl⟩)
    rcases hd with ⟨v, rfl⟩ | ⟨v, rfl⟩ <;> cases hw
  | srcLen n rest hh =>
    exact .inr (.inr ⟨rendersNext_of_other hh (by simp), resetsNext_cons hh, rfl, rfl, rfl⟩)
  | read r rest hh =>
    exact .inr (.inr ⟨rendersNext_of_other hh (by simp), resetsNext_cons hh, rfl, rfl, rfl⟩)
  | load o bs rest hh hin =>
    exact .inr (.inr ⟨rendersNext_of_other hh (by simp), resetsNext_cons hh, rfl, rfl, rfl⟩)

/-- Settles O13, by the three kinds of step. -/
theorem onlyRenderAndResetChangeFlash : Obligations.OnlyRenderAndResetChangeFlash := by
  intro s t h
  rcases step_renders_or_resets_or_keeps h with
    ⟨renders, noReset, -⟩ | ⟨-, resets, rest, rfl⟩ | ⟨-, noReset, sameCnt, sameFlag, -⟩
  · exact ⟨by simp [renders], by simp [noReset]⟩
  · exact ⟨by simp [resets], fun _ => ⟨rfl, rfl⟩⟩
  · exact ⟨fun _ _ => ⟨sameCnt, sameFlag⟩, by simp [noReset]⟩

/-- A frame holds a value in every cell (20 R46). -/
theorem read_frameCells_isSome (s : State) {p : Nat} (h : p < 32400) :
    (Memory.read (frameCells s) p).isSome :=
  Option.isSome_of_eq_some (read_frameCells s ⟨p, h⟩)

/-- `SRC_LEN` has one writer beside reset (10 R23, R29). -/
theorem step_srcLen_cases (h : step s = .next t) :
    t.srcLen = s.srcLen ∨ resetsNext s = true ∨
      ∃ n rest, s.host = .write (.srcLen n) :: rest ∧ t.srcLen = n := by
  cases step_cases h with
  | srcLen n rest hh => exact .inr (.inr ⟨n, rest, hh, rfl⟩)
  | reset rest hh => exact .inr (.inl (resetsNext_cons hh))
  | resetDuring w rest hh => exact .inr (.inl (resetsNext_cons hh))
  | _ => exact .inl rfl

/-- Settles O41: the buffer by the three kinds of step, the length by its own cases. -/
theorem bufferAndLengthHaveOneWriterEach : Obligations.BufferAndLengthHaveOneWriterEach := by
  intro s t h
  have length := step_srcLen_cases h
  rcases step_renders_or_resets_or_keeps h with
    ⟨renders, noReset, rest, rfl⟩ | ⟨noRender, resets, rest, rfl⟩ | ⟨noRender, noReset, -, -, sameDst⟩
  · exact ⟨by simp [renders], fun _ p hp => read_frameCells_isSome _ hp, by simp [noReset], length⟩
  · exact ⟨by simp [resets], by simp [noRender], fun _ p => rfl, length⟩
  · exact ⟨fun _ _ => sameDst, by simp [noRender], by simp [noReset], length⟩

/-- Settles O40: of all cases of a step only the load updates one of the three fields, and that is `SRC`. -/
theorem configurationAndSourceAreNeverWritten : Obligations.ConfigurationAndSourceAreNeverWritten := by
  intro s t h
  cases step_cases h with
  | load o bs rest hh hin => exact ⟨rfl, rfl, .inr ⟨o, bs, rest, hh⟩⟩
  | _ => exact ⟨rfl, rfl, .inl rfl⟩

end Sys2Proof.Proofs
end

section
/-! `FLASH` against the number of Present events, from one reset to the next (spec/40_flash_phase.md R101 to R103,
spec/43_render_frame.md R159). -/

namespace Sys2Proof.Proofs

open Sys2Proof.Machine

variable {s t : State}

/-- A step that is no reset advances `FLASH` by one if it is an accepted render, and else leaves it. -/
theorem step_flashReg (h : step s = .next t) (noReset : resetsNext s = false) :
    (flashReg t).toNat = ((flashReg s).toNat + if rendersNext s then 1 else 0) % 32 := by
  rcases step_renders_or_resets_or_keeps h with
    ⟨renders, -, rest, rfl⟩ | ⟨-, resets, -⟩ | ⟨noRender, -, sameCnt, sameFlag, -⟩
  · rw [renders]
    exact flashReg_rendered (takeAction rest s)
  · simp [noReset] at resets
  · rw [noRender, flashReg, sameCnt, sameFlag]
    exact (Nat.mod_eq_of_lt (flashReg_lt s)).symm

/-- `FLASH` minus the number of presents, modulo 32, is kept by every step that is no reset. -/
theorem step_keeps_flash_minus_presents (h : step s = .next t) (noReset : resetsNext s = false) :
    ((flashReg t).toNat + presentCount s.events) % 32 = ((flashReg s).toNat + presentCount t.events) % 32 := by
  rw [step_flashReg h noReset, step_presentCount h]
  omega

/-- A reset puts the register to 0 and presents nothing (R106, 10 R29). -/
theorem step_of_reset_flash_presents (h : step s = .next t) (resets : resetsNext s = true) :
    (flashReg t).toNat = 0 ∧ presentCount t.events = presentCount s.events := by
  rcases step_renders_or_resets_or_keeps h with ⟨-, noReset, -⟩ | ⟨-, -, rest, rfl⟩ | ⟨-, noReset, -⟩
  · simp [resets] at noReset
  · exact ⟨flashReg_toNat _, rfl⟩
  · simp [resets] at noReset

/-- Over a run without a reset `FLASH` counts the accepted renders. -/
theorem run_flashReg (n : Nat) (free : resetFree n s = true) (h : core.run n s = .next t) :
    (flashReg t).toNat = ((flashReg s).toNat + acceptedRenders n s) % 32 := by
  induction n generalizing s with
  | zero =>
    cases h
    exact (Nat.mod_eq_of_lt (flashReg_lt _)).symm
  | succ n ih =>
    obtain ⟨u, hstep, hrun⟩ := run_inv n h
    rw [resetFree_step n hstep, Bool.and_eq_true, Bool.not_eq_true'] at free
    obtain ⟨noReset, freeRest⟩ := free
    rw [ih freeRest hrun, step_flashReg hstep noReset, acceptedRenders_step n hstep, Nat.mod_add_mod,
      Nat.add_assoc]

/-- Settles O43: the step clauses by the kinds of step; over a run both numbers grow by the accepted renders. -/
theorem flashCountsThePresents : Obligations.FlashCountsThePresents :=
  ⟨fun _ _ h => ⟨step_keeps_flash_minus_presents h, step_of_reset_flash_presents h⟩,
    fun n s _ free h => ⟨acceptedRenders n s, run_presentCount n h, run_flashReg n free h⟩, rfl, rfl⟩

end Sys2Proof.Proofs
end

section
/-! Properties the spec derives of the address functions: bit patterns, the tiling of the bitmap region and the columns
the resampler takes (spec/30_encoding.md R77, R78, spec/41_address_generation.md R113, R116). -/

namespace Sys2Proof.Proofs

open Sys2Proof.Machine

/-- Fields side by side, as a number. -/
theorem toNat_append_eq_add {m n : Nat} (high : BitVec m) (low : BitVec n) :
    (high ++ low).toNat = high.toNat * 2 ^ n + low.toNat := by
  rw [BitVec.toNat_append, ← Nat.shiftLeft_add_eq_or_of_lt low.isLt, Nat.shiftLeft_eq]

/-- A field of an 8-bit row or column number. -/
theorem toNat_extractLsb'_ofNat_eight (start len : Nat) {n : Nat} (h : n < 256) :
    ((BitVec.ofNat 8 n).extractLsb' start len).toNat = n / 2 ^ start % 2 ^ len := by
  rw [BitVec.extractLsb'_toNat, BitVec.toNat_ofNat, Nat.mod_eq_of_lt h, Nat.shiftRight_eq_div_pow]

theorem bitmapAddr_lt (x : DstCol) (y : DstRow) : bitmapAddr x y < 6144 := by
  rw [bitmapAddr_eq]; omega

/-- A render reads attribute rows 3 to 20 only. -/
theorem attrAddr_range (x : DstCol) (y : DstRow) : 6240 ≤ attrAddr x y ∧ attrAddr x y ≤ 6815 := by
  rw [attrAddr_eq]; omega

/-- Settles O15: each field of the pattern is a quotient and remainder of the row or the column, weighted by its
place. -/
theorem fetchAddressesAreBitPatterns : Obligations.FetchAddressesAreBitPatterns := by
  intro x y
  have row_lt : y.val + 28 < 256 := by omega
  have col_lt : x.val * 256 / 240 < 256 := by omega
  refine ⟨?_, ?_, bitmapAddr_lt x y, attrAddr_range x y⟩
  · simp only [bitmapAddr_eq, toNat_append_eq_add, toNat_extractLsb'_ofNat_eight _ _ row_lt,
      toNat_extractLsb'_ofNat_eight _ _ col_lt]
    omega
  · simp only [attrAddr_eq, toNat_append_eq_add, toNat_extractLsb'_ofNat_eight _ _ row_lt,
      toNat_extractLsb'_ofNat_eight _ _ col_lt, BitVec.toNat_ofNat]
    omega

/-- The source row of a third, a band and a line in it. -/
def rowOfParts (third : Fin 3) (band line : Fin 8) : SrcRow :=
  ⟨third.val * 64 + band.val * 8 + line.val, by omega⟩

theorem rowOffset_rowOfParts (third : Fin 3) (band line : Fin 8) :
    rowOffset (rowOfParts third band line) = 32 * (third.val * 64 + line.val * 8 + band.val) := by
  have third_eq : (rowOfParts third band line).val / 64 = third.val := by simp only [rowOfParts]; omega
  have line_eq : (rowOfParts third band line).val % 8 = line.val := by simp only [rowOfParts]; omega
  have band_eq : (rowOfParts third band line).val % 64 / 8 = band.val := by simp only [rowOfParts]; omega
  rw [rowOffset_eq, third_eq, line_eq, band_eq]
  omega

/-- Every line of the region holds a row: its third stays, and band and line change places (R113). -/
theorem exists_rowOffset_eq (k : Fin 192) : ∃ r : SrcRow, rowOffset r = 32 * k.val := by
  refine ⟨rowOfParts ⟨k.val / 64, by omega⟩ ⟨k.val % 8, by omega⟩ ⟨k.val % 64 / 8, by omega⟩, ?_⟩
  rw [rowOffset_rowOfParts]
  dsimp only
  omega

/-- Third, line and band can be read off the offset (R113). -/
theorem rowOffset_injective {r q : SrcRow} (h : rowOffset r = rowOffset q) : r = q := by
  rw [rowOffset_eq, rowOffset_eq] at h
  have third : r.val / 64 = q.val / 64 := by omega
  have line : r.val % 8 = q.val % 8 := by omega
  have band : r.val % 64 / 8 = q.val % 64 / 8 := by omega
  have parts (p : SrcRow) : p.val = p.val / 64 * 64 + p.val % 64 / 8 * 8 + p.val % 8 := by omega
  apply Fin.ext
  rw [parts r, parts q, third, line, band]

/-- Settles O16: the parts of a row can be read off its offset, and every line of the region has its parts. -/
theorem bitmapRowsTileTheRegion : Obligations.BitmapRowsTileTheRegion :=
  ⟨fun _ _ h => rowOffset_injective h, exists_rowOffset_eq⟩

/-- One source column is skipped after every 15 taken (R116). -/
theorem srcCol_eq_add_div (x : DstCol) : (srcCol x).val = x.val + x.val / 15 := by
  rw [srcCol_val]; omega

theorem srcCol_lt_srcCol {x z : DstCol} (h : x < z) : srcCol x < srcCol z := by
  have h : x.val < z.val := h
  change (srcCol x).val < (srcCol z).val
  rw [srcCol_eq_add_div, srcCol_eq_add_div]
  omega

theorem srcCol_mod_sixteen (x : DstCol) : (srcCol x).val % 16 ≠ 15 := by
  rw [srcCol_eq_add_div]; omega

/-- The destination column of a source column that is not skipped. -/
theorem exists_srcCol_eq_iff (c : SrcCol) : (∃ x : DstCol, srcCol x = c) ↔ c.val % 16 ≠ 15 := by
  refine ⟨fun ⟨x, hx⟩ => hx ▸ srcCol_mod_sixteen x, fun taken => ?_⟩
  refine ⟨⟨c.val - c.val / 16, by omega⟩, Fin.ext ?_⟩
  rw [srcCol_eq_add_div]
  dsimp only
  omega

/-- The first destination column whose source column lies in cell column `k` or after it: 15 for each pair of cells
before, and 8 for the even cell of the pair. -/
def firstColOfCell (k : Nat) : Nat := k / 2 * 15 + k % 2 * 8

/-- The destination columns of one cell column are consecutive. -/
theorem byteCol_srcCol_eq_iff (x : DstCol) (k : Nat) :
    byteCol (srcCol x) = k ↔ firstColOfCell k ≤ x.val ∧ x.val < firstColOfCell (k + 1) := by
  rw [byteCol_eq, srcCol_eq_add_div, firstColOfCell, firstColOfCell]
  omega

theorem countP_range_interval (n a b : Nat) :
    (List.range n).countP (fun x => decide (a ≤ x ∧ x < b)) = min n b - a := by
  induction n with
  | zero => simp
  | succ n ih =>
    rw [List.range_succ, List.countP_append, ih, List.countP_singleton]
    simp only [decide_eq_true_eq]
    split <;> omega

/-- How many destination columns have their source column in cell column `k` (R116). -/
theorem countP_byteCol_srcCol {k : Nat} (h : k < 32) :
    (List.finRange 240).countP (fun x => byteCol (srcCol x) == k) = firstColOfCell (k + 1) - firstColOfCell k := by
  have interval : (fun x : DstCol => byteCol (srcCol x) == k) =
      (fun x => decide (firstColOfCell k ≤ x ∧ x < firstColOfCell (k + 1))) ∘ Fin.val := by
    funext x
    exact decide_eq_decide.mpr (byteCol_srcCol_eq_iff x k)
  have last_le : firstColOfCell (k + 1) ≤ 240 := by
    rw [firstColOfCell]; omega
  rw [interval, ← List.countP_map, List.map_coe_finRange_eq_range, countP_range_interval,
    Nat.min_eq_right last_le]

/-- Settles O17, from the form `x + x/15` of the resampler. -/
theorem resamplerSkipsEverySixteenthColumn : Obligations.ResamplerSkipsEverySixteenthColumn := by
  refine ⟨srcCol_eq_add_div, fun x z => srcCol_lt_srcCol, exists_srcCol_eq_iff, fun k => ?_⟩
  rw [countP_byteCol_srcCol k.isLt, firstColOfCell, firstColOfCell]
  split <;> omega

end Sys2Proof.Proofs
end

section
/-! `ColourIndex` in closed form, and what it does not depend on (spec/42_colour_resolution.md R136 to R138). -/

namespace Sys2Proof.Proofs

open Sys2Proof.Machine

/-- Promotion puts the bright bit above the colour. -/
theorem promote_eq_append (bright : Bool) (c : BitVec 3) : promote bright c = BitVec.ofBool bright ++ c := by
  revert bright c
  decide

/-- Exchanging the pair is the same as inverting the bit that selects from it. -/
theorem pixelSelect_flashMux (bmp : Byte) (bit : Nat) (flash flag : Bool) (ink paper : BitVec 3)
    (index : BitVec 3 → BitVec 4) :
    pixelSelect bmp bit (index (flashMux flash flag (ink, paper)).1) (index (flashMux flash flag (ink, paper)).2) =
      index (if (bmp.getLsbD bit ^^ (flash && flag)) = true then ink else paper) := by
  unfold pixelSelect
  cases bmp.getLsbD bit <;> cases flash <;> cases flag <;> rfl

/-- Settles O19: the selection and the exchange are one choice, and its promotion is an append. -/
theorem colourIndexClosedForm : Obligations.ColourIndexClosedForm := fun attr bmp bit flag =>
  (pixelSelect_flashMux bmp bit (attrFlash attr) flag (attrInk attr) (attrPaper attr) _).trans
    (promote_eq_append (attrBright attr) _)

/-- Settles O20: promotion is applied to each colour alone, whichever place it takes. -/
theorem flashSwapCommutesWithPromotion : Obligations.FlashSwapCommutesWithPromotion := by
  intro flash flag bright ink paper
  rw [flashMux_eq]
  split <;> rfl

/-- The palette index as a number. -/
theorem colourIndex_toNat (attr bmp : Byte) (bit : Nat) (flag : Bool) :
    (colourIndex attr bmp bit flag).toNat =
      (if attr.getLsbD 6 = true then 8 else 0) +
        if (bmp.getLsbD bit ^^ (attr.getLsbD 7 && flag)) = true then attr.toNat % 8 else attr.toNat / 8 % 8 := by
  have bright : (BitVec.ofBool (attr.getLsbD 6)).toNat * 2 ^ 3 = if attr.getLsbD 6 = true then 8 else 0 := by
    cases attr.getLsbD 6 <;> rfl
  rw [colourIndexClosedForm, toNat_append_eq_add, bright, apply_ite BitVec.toNat]
  exact congrArg _ (if_congr Iff.rfl (attrInk_toNat attr) (attrPaper_toNat attr))

/-- Of a bitmap byte only the selected bit matters. -/
theorem colourIndex_congr_bit {bmp bmp' : Byte} {bit : Nat} (h : bmp.getLsbD bit = bmp'.getLsbD bit)
    (attr : Byte) (flag : Bool) : colourIndex attr bmp bit flag = colourIndex attr bmp' bit flag := by
  rw [colourIndexClosedForm, colourIndexClosedForm, h]

/-- The flag shows only in a flashing cell of two different colours. -/
theorem colourIndex_congr_flag {attr : Byte}
    (h : attr.getLsbD 7 = false ∨ attr.toNat % 8 = attr.toNat / 8 % 8) (bmp : Byte) (bit : Nat) (f g : Bool) :
    colourIndex attr bmp bit f = colourIndex attr bmp bit g := by
  apply BitVec.eq_of_toNat_eq
  rw [colourIndex_toNat, colourIndex_toNat]
  rcases h with noFlash | oneColour
  · rw [noFlash, Bool.false_and, Bool.false_and]
  · rw [oneColour, ite_self, ite_self]

/-- Attribute 0 is black on black, neither bright nor flashing (R138). -/
theorem colourIndex_zero (bmp : Byte) (bit : Nat) (flag : Bool) : colourIndex 0#8 bmp bit flag = 0#4 := by
  rw [colourIndexClosedForm]
  exact congrArg (BitVec.ofBool false ++ ·) (ite_self 0#3)

end Sys2Proof.Proofs
end

section
/-! The outcomes of `RENDER_FRAME`: what an accepted render draws and presents, what a refused one leaves
(spec/43_render_frame.md R151 to R161, spec/60_exceptions.md R182, R183). -/

namespace Sys2Proof.Proofs

open Sys2Proof.Machine

variable {s : State}

theorem exec_renderFrame_without_buffer (border : Nat) (h : s.bufPresent = false) :
    exec (.renderFrame border) s = .next (setErr .bufferAbsent s) :=
  if_pos h

theorem exec_renderFrame_of_short (border : Nat) (hbuf : s.bufPresent = true) (hlen : s.srcLen.toNat < 6912) :
    exec (.renderFrame border) s = .next (setErr .invalidFrameSize s) := by
  have notAbsent : ¬ s.bufPresent = false := by simp [hbuf]
  have short : frameDeclared s = false := decide_eq_false (Nat.not_le.mpr hlen)
  exact (if_neg notAbsent).trans (if_pos short)

/-- Settles O24: the check of the buffer comes before that of the length. -/
theorem renderWithoutBufferTakesBufferAbsent : Obligations.RenderWithoutBufferTakesBufferAbsent :=
  fun _ border h => ⟨exec_renderFrame_without_buffer border h, rfl⟩

/-- Settles O25: the check of the length is the second and last. -/
theorem shortFrameTakesInvalidFrameSize : Obligations.ShortFrameTakesInvalidFrameSize :=
  fun _ border hbuf hlen => ⟨exec_renderFrame_of_short border hbuf hlen, rfl⟩

/-- An accepted render leaves in each cell the word of its pixel, under the FlashPhase after the advance. -/
theorem dstRead_rendered (s : State) (p : PixIndex) :
    dstRead (rendered s) p.val = some (pixelWord (advanceFlash s) p) :=
  read_frameCells (advanceFlash s) p

theorem dstRead_rendered_past (s : State) {p : Nat} (h : 32400 ≤ p) : dstRead (rendered s) p = none :=
  read_frameCells_past (advanceFlash s) p h

/-- Settles O23: a render that may run fills the cells below 32400, any other changes `STATUS.ERR` alone. -/
theorem renderFrameChangesNothingElse : Obligations.RenderFrameChangesNothingElse := by
  intro s t border h
  cases ready : renderReady s with
  | true =>
    obtain rfl : setErr .ok (rendered s) = t :=
      Host.Outcome.next.inj ((execRenderFrame_of_ready border ready).symm.trans h)
    exact ⟨rfl, rfl, rfl, rfl, fun _ => rfl, fun _ _ hp => dstRead_rendered_past s hp,
      fun notOk => absurd rfl notOk⟩
  | false =>
    obtain ⟨r, notOk, outcome⟩ := execRenderFrame_of_not_ready border ready
    obtain rfl : setErr r s = t := Host.Outcome.next.inj (outcome.symm.trans h)
    exact ⟨rfl, rfl, rfl, rfl, fun _ => rfl, fun ok => absurd ok notOk,
      fun _ => ⟨rfl, rfl, rfl, rfl, fun _ => rfl⟩⟩

/-- Settles O22: the event carries the words of the cells the render has just filled. -/
theorem renderFramePresentsTheWholeBuffer : Obligations.RenderFramePresentsTheWholeBuffer := by
  intro s border hbuf hlen
  refine ⟨_, (frameCells (advanceFlash s)).map Prod.snd, exec_renderFrame_of_ready border hbuf hlen, rfl, ?_,
    fun p hp => ?_, fun p hp => dstRead_rendered_past s hp⟩
  · rw [List.length_map, frameCells_length]
  · exact (frameCells_snd_getElem? _ ⟨p, hp⟩).trans (dstRead_rendered s ⟨p, hp⟩).symm

theorem advanceFlash_flashFlag_eq_ite (s : State) :
    (advanceFlash s).flashFlag = if s.flashCnt.toNat = 15 then !s.flashFlag else s.flashFlag := by
  obtain ⟨wraps, counts, -⟩ := flashAdvanceIncrementsThenToggles s
  by_cases last : s.flashCnt.toNat = 15
  · rw [if_pos last, (wraps last).2]
  · rw [if_neg last, (counts last).2]

/-- The palette entry of an index is an entry of the vector. -/
theorem some_palRead (s : State) (i : BitVec 4) : some (palRead s i) = s.pal[i.toNat]? :=
  (Vector.getElem?_eq_getElem i.isLt).symm

/-- Settles O21: cell `y * 240 + x` is pixel (x, y), its word the palette entry of `ColourIndex` as a number. -/
theorem renderFrameDrawsEveryPixel : Obligations.RenderFrameDrawsEveryPixel := by
  intro s border hbuf hlen
  refine ⟨_, exec_renderFrame_of_ready border hbuf hlen, rfl, fun x y hx hy => ?_⟩
  have cell_lt : y * 240 + x < 32400 := by omega
  have row : (y * 240 + x) / 240 = y := by omega
  have col : (y * 240 + x) % 240 = x := by omega
  refine ⟨advanceFlash_flashFlag_eq_ite s, (dstRead_rendered s ⟨y * 240 + x, cell_lt⟩).trans ?_⟩
  simp only [pixelWord_eq, row, col, some_palRead, colourIndex_toNat, srcRead_advanceFlash,
    advanceFlash_flashFlag_eq_ite, advanceFlash_pal]

end Sys2Proof.Proofs
end

section
/-! What the buffer of a render depends on (spec/20_memory.md R43, spec/42_colour_resolution.md R138,
spec/43_render_frame.md R157, R162, R163). -/

namespace Sys2Proof.Proofs

open Sys2Proof.Machine

variable {s t : State}

/-- Two renders draw the same buffer if they have one palette and one flag and every pixel has its attribute byte and
its bitmap bit the same. -/
theorem frameCells_eq_of_pixelBits (hpal : s.pal = t.pal) (hflag : s.flashFlag = t.flashFlag)
    (hattr : ∀ x y, srcRead s (attrAddr x y) = srcRead t (attrAddr x y))
    (hbit : ∀ x y, (srcRead s (bitmapAddr x y)).getLsbD (bitPos (srcCol x)) =
      (srcRead t (bitmapAddr x y)).getLsbD (bitPos (srcCol x))) : frameCells s = frameCells t := by
  refine frameCells_congr s t fun p => ?_
  simp only [pixelWord, pixelIndex, fetchAttr, fetchBitmap, palRead, hattr, hflag, hpal,
    colourIndex_congr_bit (hbit (pixCol p) (pixRow p))]

/-- The resampler never takes the last column of an odd cell, so bit 0 of an odd byte column is not read (R43). -/
theorem bitPos_srcCol_ne_zero {x : DstCol} (odd : byteCol (srcCol x) % 2 = 1) : bitPos (srcCol x) ≠ 0 := by
  have taken := srcCol_mod_sixteen x
  rw [byteCol_eq] at odd
  rw [bitPos_eq]
  omega

/-- Settles O29: the listed bits are those at the two addresses of every pixel. -/
theorem renderDependsOnlyOnTheReadSet : Obligations.RenderDependsOnlyOnTheReadSet := by
  intro s₁ s₂ b₁ b₂ hbuf₁ hlen₁ hbuf₂ hlen₂ hpal hflag hbitmap hattr
  have same : frameCells (advanceFlash s₁) = frameCells (advanceFlash s₂) := by
    refine frameCells_eq_of_pixelBits hpal hflag (fun x y => ?_) (fun x y => ?_)
    · have byte_lt := byteCol_le (srcCol x)
      simpa only [attrAddr, attrRowAddr_eq, srcRead_advanceFlash] using
        hattr ((srcRow y).val / 8) (byteCol (srcCol x)) (by simp only [srcRow_val]; omega)
          (by simp only [srcRow_val]; omega) (by omega)
    · obtain ⟨row_ge, row_le⟩ := srcRow_range y
      exact hbitmap (srcRow y) (byteCol (srcCol x)) (bitPos (srcCol x)) row_ge row_le
        (Nat.lt_succ_of_le (byteCol_le _)) (Nat.lt_succ_of_le (bitPos_le _)) bitPos_srcCol_ne_zero
  refine ⟨_, _, exec_renderFrame_of_ready b₁ hbuf₁ hlen₁, exec_renderFrame_of_ready b₂ hbuf₂ hlen₂, same, ?_⟩
  exact congrArg (fun cells => some (presentOf cells)) same

/-- A byte the host has placed reads alike whatever the free values are. -/
theorem srcRead_eq_of_placed {a : Nat} (hsrc : t.src = s.src) (placed : (Memory.read s.src a).isSome) :
    srcRead t a = srcRead s a := by
  obtain ⟨v, hv⟩ := Option.isSome_iff_exists.mp placed
  rw [srcRead, srcRead, hsrc, hv]
  rfl

/-- On a placed frame a change of the flag and the free values alone shows only in a flashing cell of two colours. -/
theorem frameCells_eq_of_placed (hsrc : t.src = s.src) (hpal : t.pal = s.pal) (placed : framePlaced s)
    (hflash : t.flashFlag = s.flashFlag ∨ ∀ a, 6240 ≤ a → a ≤ 6815 →
      (srcRead s a).getLsbD 7 = false ∨ (srcRead s a).toNat % 8 = (srcRead s a).toNat / 8 % 8) :
    frameCells t = frameCells s := by
  refine frameCells_congr t s fun p => ?_
  obtain ⟨attr_ge, attr_le⟩ := attrAddr_range (pixCol p) (pixRow p)
  have bitmap_lt := bitmapAddr_lt (pixCol p) (pixRow p)
  have sameAttr : fetchAttr t (pixCol p) (pixRow p) = fetchAttr s (pixCol p) (pixRow p) :=
    srcRead_eq_of_placed hsrc (placed _ (by omega))
  have sameBitmap : fetchBitmap t (pixCol p) (pixRow p) = fetchBitmap s (pixCol p) (pixRow p) :=
    srcRead_eq_of_placed hsrc (placed _ (by omega))
  have sameIndex : pixelIndex t (pixCol p) (pixRow p) = pixelIndex s (pixCol p) (pixRow p) := by
    rw [pixelIndex, pixelIndex, sameAttr, sameBitmap]
    rcases hflash with sameFlag | noFlash
    · rw [sameFlag]
    · exact colourIndex_congr_flag (noFlash _ attr_ge attr_le) _ _ _ _
  simp only [pixelWord, palRead, hpal, sameIndex]

/-- Settles O30: the second render toggles the flag only where the first has left the count at 15. -/
theorem repeatedRenderGivesTheSameBuffer : Obligations.RepeatedRenderGivesTheSameBuffer := by
  intro s b c hbuf hlen placed hflash
  refine ⟨_, _, exec_renderFrame_of_ready b hbuf hlen,
    exec_renderFrame_of_ready c (s := setErr .ok (rendered s)) hbuf hlen, ?_⟩
  refine frameCells_eq_of_placed (s := advanceFlash s) (t := advanceFlash (setErr .ok (rendered s)))
    rfl rfl placed (hflash.imp_left fun notLast => ?_)
  have cnt_ne : (setErr .ok (rendered s)).flashCnt.toNat ≠ 15 := notLast
  rw [advanceFlash_flashFlag_eq_ite, if_neg cnt_ne]
  rfl

/-- Settles O31: attribute byte 0 gives index 0 for either bitmap bit and either flag. -/
theorem allZeroFrameIsPaletteZero : Obligations.AllZeroFrameIsPaletteZero := by
  intro s border hbuf hlen zero
  refine ⟨_, exec_renderFrame_of_ready border hbuf hlen, fun p hp => ?_⟩
  refine (dstRead_rendered s ⟨p, hp⟩).trans ?_
  obtain ⟨-, attr_le⟩ := attrAddr_range (pixCol ⟨p, hp⟩) (pixRow ⟨p, hp⟩)
  have attr_zero : fetchAttr (advanceFlash s) (pixCol ⟨p, hp⟩) (pixRow ⟨p, hp⟩) = 0#8 := by
    rw [fetchAttr, srcRead_advanceFlash, srcRead, zero _ (by omega), Option.getD_some]
  rw [pixelWord, pixelIndex, attr_zero, colourIndex_zero, some_palRead]
  rfl

end Sys2Proof.Proofs
end

section
/-! The pixel scan draws the same buffer as the atomic transition (spec/43_render_frame.md R152 to R157). -/

namespace Sys2Proof.Proofs

open Sys2Proof.Machine

variable {s : State}

theorem scanFrame_pix (s : State) : (scanFrame s).pix = 32400 := by
  unfold scanFrame
  exact pixelSteps_from_zero_pix s 32400 (Nat.le_refl _) s.dst

/-- `DST` in one of the two forms the invariant allows is canonical. -/
theorem wf_of_dstWhole {m : Memory Pixel} (h : m = [] ∨ m.map Prod.fst = List.range 32400) : Memory.wf m := by
  rcases h with rfl | full
  · exact .nil
  · rw [Memory.wf, full]
    exact List.pairwise_lt_range

/-- `DST` in one of these forms holds nothing past the last pixel. -/
theorem read_past_of_dstWhole {m : Memory Pixel} (h : m = [] ∨ m.map Prod.fst = List.range 32400) {a : Nat}
    (ha : 32400 ≤ a) : Memory.read m a = none := by
  rcases h with rfl | full
  · rfl
  · refine Memory.read_unlisted _ _ ?_
    rw [full, List.mem_range]
    omega

/-- The scan writes every cell of a frame and nothing past them, so what it leaves is the frame. -/
theorem scanFrame_dst (h : s.dst = [] ∨ s.dst.map Prod.fst = List.range 32400) :
    (scanFrame s).dst = frameCells s := by
  unfold scanFrame
  obtain ⟨wf, inside, past⟩ :=
    pixelSteps_dst s 32400 { pix := 0, dst := s.dst } (wf_of_dstWhole h) (Nat.le_of_eq (Nat.zero_add _))
  refine Memory.ext_of_read _ _ wf (frameCells_wf s) fun a => ?_
  by_cases ha : a < 32400
  · have written := inside ⟨a, ha⟩ (Nat.zero_le a) (Nat.lt_of_lt_of_eq ha (Nat.zero_add _).symm)
    exact written.trans (read_frameCells s ⟨a, ha⟩).symm
  · have ha : 32400 ≤ a := Nat.le_of_not_lt ha
    have kept := past a (.inr (Nat.le_trans (Nat.le_of_eq (Nat.zero_add _)) ha))
    rw [read_frameCells_past s a ha]
    exact kept.trans (read_past_of_dstWhole h ha)

/-- Settles O28: both forms of the command make the same checks, and their drawings are equal. -/
theorem pixelScanAgreesWithAtomicRender : Obligations.PixelScanAgreesWithAtomicRender := by
  intro s border hs
  have sameDrawing : drawByScan (advanceFlash s) = drawFrame (advanceFlash s) := by
    rw [drawByScan, drawFrame, scanFrame_dst (s := advanceFlash s) hs.dstWhole]
  refine ⟨scanFrame_pix s, ?_⟩
  rw [renderByScan, sameDrawing]
  rfl

end Sys2Proof.Proofs
end

section
/-! Register reads, loads of `SRC` and reset, and the boot sequence made of them (spec/10_state.md R20 to R29,
spec/20_memory.md R41, spec/70_reset_and_hazards.md R210 to R214). -/

namespace Sys2Proof.Proofs

open Sys2Proof.Machine

variable {s : State} {rest : List HostAction}

/-- Settles O33: a read emits `regRead`, whose value for each register is that of its view. -/
theorem registerReadsHaveNoSideEffect : Obligations.RegisterReadsHaveNoSideEffect := by
  intro s r rest h
  refine ⟨regRead s r, step_cons h, ?_, ?_, ?_, ?_⟩
  · rintro rfl; rfl
  · rintro rfl; exact ⟨_, rfl, statusReg_toNat s⟩
  · rintro rfl; rfl
  · rintro rfl; exact ⟨_, rfl, flashReg_toNat s⟩

/-- A placed unit reads back: later units go to later addresses. -/
theorem read_place_inside {α : Type} (m : Memory α) (hm : Memory.wf m) (a : Nat) (vs : List α) (i : Nat)
    (hi : i < vs.length) : Memory.read (Memory.place m a vs) (a + i) = some vs[i] := by
  induction vs generalizing m a i with
  | nil => simp at hi
  | cons v vs ih =>
    have hwrite : Memory.wf (Memory.write m a v) := Memory.write_wf m hm a v
    cases i with
    | zero =>
      calc Memory.read (Memory.place (Memory.write m a v) (a + 1) vs) a
          = Memory.read (Memory.write m a v) a :=
            Memory.read_place_outside _ hwrite _ _ _ (.inl (Nat.lt_succ_self a))
        _ = some v := Memory.read_write_same m a v
    | succ i =>
      rw [← Nat.add_assoc, Nat.add_right_comm]
      exact ih _ hwrite (a + 1) i (Nat.lt_of_succ_lt_succ hi)

/-- A load inside the space fills `SRC`. -/
theorem step_of_load {offset : Nat} {bytes : List Byte} (h : s.host = .loadSrc offset bytes :: rest)
    (hin : offset + bytes.length ≤ Config.srcSpace) :
    step s = .next (fillSrc offset bytes (takeAction rest s)) :=
  (step_cons h).trans (if_pos hin)

/-- Settles O36: the load is a placement, so the laws of one say what reads back and what stays. -/
theorem loadPlacesExactlyItsBytes : Obligations.LoadPlacesExactlyItsBytes := by
  intro s offset bytes rest h hin hwf
  refine ⟨_, step_of_load h hin, fun i hi => ?_,
    fun a ha => Memory.read_place_outside s.src hwf offset bytes a ha, rfl⟩
  rw [srcRead, fillSrc_src, takeAction_src, read_place_inside s.src hwf offset bytes i hi, Option.getD_some]

/-- A reset, between commands or in one, is the taking of the reset (R210, R212). -/
theorem step_of_reset (h : s.host = .reset :: rest ∨ ∃ w, s.host = .resetDuring w :: rest) :
    step s = .next (takeReset (takeAction rest s)) := by
  rcases h with h | ⟨w, h⟩
  · exact step_cons h
  · exact step_cons h

/-- `STATUS` of a state with no fault recorded reads as the strap alone. -/
theorem statusReg_toNat_of_ok (h : s.statusErr = .ok) :
    (statusReg s).toNat = if s.bufPresent = true then 16 else 0 := by
  rw [statusReg_toNat, h]
  exact Nat.zero_add _

/-- Settles O37: each clause is a field of the state after reset. -/
theorem resetRestoresTheResetValues : Obligations.ResetRestoresTheResetValues := by
  intro s rest h
  exact ⟨_, step_of_reset h, flashReg_toNat _, rfl, rfl, statusReg_toNat_of_ok rfl, fun _ => rfl,
    rfl, rfl, rfl, rfl, rfl⟩

/-- Settles O38: each clause is a field of `State.reset`. -/
theorem machineAfterReset : Obligations.MachineAfterReset :=
  ⟨flashReg_toNat _, rfl, rfl, fun _ => rfl, rfl, rfl, rfl⟩

/-- After reset and a load of a frame the machine has its strap and events, `FLASH` and `SRC_LEN` at 0 and the rest of
the queue before it. -/
theorem run_reset_load {frame : List Byte} (hfit : frame.length ≤ Config.srcSpace)
    (h : s.host = .reset :: .loadSrc 0 frame :: rest) :
    ∃ t : State, (∀ n, core.run (n + 2) s = core.run n t) ∧ t.host = rest ∧ t.bufPresent = s.bufPresent ∧
      (flashReg t).toNat = 0 ∧ t.srcLen.toNat = 0 ∧ t.events = s.events := by
  have reset := step_of_reset (.inl h)
  have load := step_of_load (s := takeReset (takeAction (.loadSrc 0 frame :: rest) s)) rfl
    (Nat.zero_add _ ▸ hfit)
  exact ⟨_, fun n => (run_step (n + 1) reset).trans (run_step n load), rfl, rfl, flashReg_toNat _, rfl, rfl⟩

/-- Settles O39: after reset and load, with the length written the word renders, and without it the length is
still 0. -/
theorem bootSequenceRenders : Obligations.BootSequenceRenders := by
  intro s frame w rest hbuf hmin hmax hw
  have hfit : frame.length ≤ Config.srcSpace := Nat.le_of_lt_succ hmax
  have isRender := decode_of_highByte_eq_one hw
  refine ⟨fun h => ?_, fun h => ?_⟩
  · obtain ⟨u, hrun, hhost, hstrap, hflash, -, hevents⟩ := run_reset_load hfit h
    have length := step_cons hhost
    have declared : 6912 ≤ (BitVec.ofNat 32 frame.length).toNat := by
      rwa [BitVec.toNat_ofNat, Nat.mod_eq_of_lt hmax]
    have render := step_of_render
      (s := setSrcLen (BitVec.ofNat 32 frame.length) (takeAction (.write (.cmd w) :: rest) u)) rfl isRender
      ((renderReady_iff _).mpr ⟨hstrap.trans hbuf, declared⟩)
    refine ⟨_, (hrun 2).trans ((run_step 1 length).trans (run_step 0 render)), rfl, ?_, ?_⟩
    · refine (flashReg_rendered _).trans ?_
      change ((flashReg u).toNat + 1) % 32 = 1
      rw [hflash]
    · exact (presentCount_present_cons _ _ _ _ _ _).trans (congrArg (presentCount · + 1) hevents)
  · obtain ⟨u, hrun, hhost, hstrap, -, hlen, hevents⟩ := run_reset_load hfit h
    have short := exec_renderFrame_of_short (s := takeAction rest u) (borderField w).toNat
      (hstrap.trans hbuf) (by simp [hlen])
    exact ⟨_, (hrun 1).trans (run_step 0 ((step_of_decode hhost isRender).trans short)), rfl, hevents⟩

end Sys2Proof.Proofs
end
